-- ==== Sys2Proof/Word.lean ====
section
/-! DEFINITION. The widths of the machine's words (10_state.md R7, R8, R13; 20_memory.md R22) and the names operands are made of:
register names in the order of the table's header lines, register sums, effective-address operands. -/

namespace Sys2Proof

/-- An 8-bit quantity: a memory location's content, an 8-bit register, `d8`, `ib` (R8, R27). -/
abbrev Byte := BitVec 8

/-- A 16-bit quantity: a general or segment register, an offset, `ip`, `FLAGS` (R7, R13, R14, R15, R24). -/
abbrev Word := BitVec 16

/-- The number of one of the 2^20 memory locations (R22). -/
abbrev Loc := BitVec 20

/-- A column of the table, the source's `digit= 0 1 2 3 4 5 6 7`: a register number or a `/digit` (R42, R43). -/
inductive Digit where
  | d0 | d1 | d2 | d3 | d4 | d5 | d6 | d7
  deriving DecidableEq, Repr

/-- The 16-bit general registers, in the order of the header line `rw = AX CX DX BX SP BP SI DI` (R7). -/
inductive Reg16 where
  | ax | cx | dx | bx | sp | bp | si | di
  deriving DecidableEq, Repr

/-- The 8-bit general registers, in the order of the header line `rb = AL CL DL BL AH CH DH BH` (R8). -/
inductive Reg8 where
  | al | cl | dl | bl | ah | ch | dh | bh
  deriving DecidableEq, Repr

/-- The segment registers, in the order of the header line `s = ES CS SS DS` (R12). -/
inductive SegReg where
  | es | cs | ss | ds
  deriving DecidableEq, Repr

/-- The eight register sums of a memory form, in the order of `rm` = 0 to 7 (R61, R96: no other sum exists). -/
inductive RegSum where
  | bxSi | bxDi | bpSi | bpDi | si | di | bp | bx
  deriving DecidableEq, Repr

/-- An effective-address operand as an instruction's bytes give it: the 32 rows of the table with their displacement (R51).
The row `mod` = 0, `rm` = 6 is the simple variable, so `sum .bp` stands for no bytes (R50); `Ea.wf` refuses it. -/
inductive Ea where
  /-- `mod` = 0: a register sum alone (R62 to R67, R69). -/
  | sum (r : RegSum)
  /-- `mod` = 0, `rm` = 6: `d16 (simple var)` (R68). -/
  | var (d : Word)
  /-- `mod` = 1: a register sum and a sign-extended byte (R70 to R77). -/
  | sumD8 (r : RegSum) (d : Byte)
  /-- `mod` = 2: a register sum and a word (R78 to R85). -/
  | sumD16 (r : RegSum) (d : Word)
  /-- `mod` = 3: a general register by number; the instruction's width says of which file (R58, R86 to R93). -/
  | reg (i : Digit)
  deriving DecidableEq, Repr

/-- What `DecodeEA` answers (R61): a register number, or an offset with the form's default segment (R102: the default segment
is carried with the operand). -/
inductive Operand where
  | reg (i : Digit)
  | mem (off : Word) (defseg : SegReg)
  deriving DecidableEq, Repr

/-- What the decoder expects of the next byte (R54: position tells a prefix byte from an effective address byte of the same
value). -/
inductive Position where
  /-- An opcode byte, or a segment override byte before it. -/
  | opcodeByte
  /-- An effective address byte. -/
  | eaByte
  deriving DecidableEq, Repr

end Sys2Proof
end

