-- ==== Sys2Proof/Config.lean ====
section
/-! DEFINITION. The parameters of 00_scope.md section 4 that the spec leaves to the model: the free values of FLAGS, the choice of
`flags_fn`, `override_bytes`, and what memory holds before anything is written. `instr_table` is `Sys2Proof.instrTable`
(Decode.lean) and `init_state` is `Sys2Proof.Machine.State.reset`. -/

namespace Sys2Proof

/-- DESIGN CHOICE (log entry 5). The values `havoc(FLAGS)` draws (10_state.md R15, decision D8): nothing is known of them; the index is
the count of draws made so far. -/
opaque Config.freeFlags : Nat → Word

/-- The two readings decision D8 leaves a model: `havoc(FLAGS)`, or `flags_fn` as 93_implementation_defined.md GK7 has it. -/
inductive Config.FlagsPolicy where
  | havoc
  | gk7
  deriving DecidableEq, Repr

/-- The spec's own choice is `havoc` (D8); `gk7` would be PRESUMED (log entry 6). -/
def Config.flagsPolicy : Config.FlagsPolicy := .havoc

/-- `override_bytes`, PRESUMED from general knowledge (30_encoding.md R54, D10, log entry 21). -/
def Config.overrideBytes : SegReg → Byte
  | .es => 0x26
  | .cs => 0x2E
  | .ss => 0x36
  | .ds => 0x3E

/-- DESIGN CHOICE (log entry 9), unsafe where a claim is about a run from reset: what a location reads as that nothing has written. The
spec leaves every memory byte of `init_state` unspecified (R20, D19). -/
def Config.unwrittenByte : Byte := 0

end Sys2Proof
end

