-- ==== Sys2Proof/Syntax.lean ====
section
/-! DEFINITION. The instructions: one constructor per row of spec/opcode_table.json. The 32 operand-form rows and the 4 prefix
rows are parts of an instruction on the hardware; the table lists them as rows, and the model gives each an arm (log entries 1, 3). -/

namespace Sys2Proof

/-- One constructor per row of spec/opcode_table.json. In an operand-form row `c` is the column of the effective address byte,
which the row leaves free (30_encoding.md R41) and `d` the displacement; in an instruction row `ea` is the effective-address
operand, `r` the register its column names and `ib`, `iw` the immediate. -/
inductive Instr where
  /-- `[BX + SI]`, R62. -/
  | eaBxSi (c : Digit)
  /-- `[BX + DI]`, R63. -/
  | eaBxDi (c : Digit)
  /-- `[BP + SI]`, R64. -/
  | eaBpSi (c : Digit)
  /-- `[BP + DI]`, R65. -/
  | eaBpDi (c : Digit)
  /-- `[SI]`, R66. -/
  | eaSi (c : Digit)
  /-- `[DI]`, R67. -/
  | eaDi (c : Digit)
  /-- `d16 (simple var)`, R68. -/
  | eaVar (c : Digit) (d : Word)
  /-- `[BX]`, R69. -/
  | eaBx (c : Digit)
  /-- `[BX + SI] + d8`, R70. -/
  | eaBxSiD8 (c : Digit) (d : Byte)
  /-- `[BX + DI] + d8`, R71. -/
  | eaBxDiD8 (c : Digit) (d : Byte)
  /-- `[BP + SI] + d8`, R72. -/
  | eaBpSiD8 (c : Digit) (d : Byte)
  /-- `[BP + DI] + d8`, R73. -/
  | eaBpDiD8 (c : Digit) (d : Byte)
  /-- `[SI] + d8`, R74. -/
  | eaSiD8 (c : Digit) (d : Byte)
  /-- `[DI] + d8`, R75. -/
  | eaDiD8 (c : Digit) (d : Byte)
  /-- `[BP] + d8`, R76. -/
  | eaBpD8 (c : Digit) (d : Byte)
  /-- `[BX] + d8`, R77. -/
  | eaBxD8 (c : Digit) (d : Byte)
  /-- `[BX + SI] + d16`, R78. -/
  | eaBxSiD16 (c : Digit) (d : Word)
  /-- `[BX + DI] + d16`, R79. -/
  | eaBxDiD16 (c : Digit) (d : Word)
  /-- `[BP + SI] + d16`, R80. -/
  | eaBpSiD16 (c : Digit) (d : Word)
  /-- `[BP + DI] + d16`, R81. -/
  | eaBpDiD16 (c : Digit) (d : Word)
  /-- `[SI] + d16`, R82. -/
  | eaSiD16 (c : Digit) (d : Word)
  /-- `[DI] + d16`, R83. -/
  | eaDiD16 (c : Digit) (d : Word)
  /-- `[BP] + d16`, R84. -/
  | eaBpD16 (c : Digit) (d : Word)
  /-- `[BX] + d16`, R85. -/
  | eaBxD16 (c : Digit) (d : Word)
  /-- `ew=AX eb=AL`, R86. -/
  | eaAxAl (c : Digit)
  /-- `ew=CX eb=CL`, R87. -/
  | eaCxCl (c : Digit)
  /-- `ew=DX eb=DL`, R88. -/
  | eaDxDl (c : Digit)
  /-- `ew=BX eb=BL`, R89. -/
  | eaBxBl (c : Digit)
  /-- `ew=SP eb=AH`, R90. -/
  | eaSpAh (c : Digit)
  /-- `ew=BP eb=CH`, R91. -/
  | eaBpCh (c : Digit)
  /-- `ew=SI eb=DH`, R92. -/
  | eaSiDh (c : Digit)
  /-- `ew=DI eb=BH`, R93. -/
  | eaDiBh (c : Digit)
  /-- `SUB eb,ib` = `80 /5 ib`, 41_instructions.md R103. -/
  | subEbIb (ea : Ea) (ib : Byte)
  /-- `ADD ew,rw` = `01 /r`, R104. -/
  | addEwRw (ea : Ea) (r : Reg16)
  /-- `MOV rw,ew` = `8B /r`, R105. -/
  | movRwEw (r : Reg16) (ea : Ea)
  /-- `MOV ew,rw` = `89 /r`, R106. -/
  | movEwRw (ea : Ea) (r : Reg16)
  /-- `MOV rb,eb` = `8A /r`, R107. -/
  | movRbEb (r : Reg8) (ea : Ea)
  /-- `MOV ew,iw` = `C7 /0 iw`, R108. -/
  | movEwIw (ea : Ea) (iw : Word)
  /-- `INC eb` = `FE /0`, R109. -/
  | incEb (ea : Ea)
  /-- `INC ew` = `FF /0`, R110. -/
  | incEw (ea : Ea)
  /-- Segment override byte for `ES`, 30_encoding.md R54. -/
  | segOverrideES
  /-- Segment override byte for `CS`, R54. -/
  | segOverrideCS
  /-- Segment override byte for `SS`, R54. -/
  | segOverrideSS
  /-- Segment override byte for `DS`, R54. -/
  | segOverrideDS
  deriving DecidableEq, Repr

end Sys2Proof
end

