-- ==== Sys2Proof/WellFormed.lean ====
section
/-! DEFINITION. Which instruction terms have bytes. The one term the types let through without an encoding is an operand `[BP]`
with no displacement (30_encoding.md R50). -/

namespace Sys2Proof

/-- "There is no encoding of `[BP]` without a displacement byte" (R50); every other operand is a row of the table (R51). -/
def Ea.wf (ea : Ea) : Bool := decide (ea ≠ .sum .bp)

/-- An instruction is well formed when its operand has an encoding. -/
def Instr.wf : Instr → Bool
  | .subEbIb ea _ | .addEwRw ea _ | .movRwEw _ ea | .movEwRw ea _ | .movRbEb _ ea | .movEwIw ea _ | .incEb ea | .incEw ea => ea.wf
  | .eaBxSi _ | .eaBxDi _ | .eaBpSi _ | .eaBpDi _ | .eaSi _ | .eaDi _ | .eaVar _ _ | .eaBx _ => true
  | .eaBxSiD8 _ _ | .eaBxDiD8 _ _ | .eaBpSiD8 _ _ | .eaBpDiD8 _ _ | .eaSiD8 _ _ | .eaDiD8 _ _ | .eaBpD8 _ _ | .eaBxD8 _ _ => true
  | .eaBxSiD16 _ _ | .eaBxDiD16 _ _ | .eaBpSiD16 _ _ | .eaBpDiD16 _ _ => true
  | .eaSiD16 _ _ | .eaDiD16 _ _ | .eaBpD16 _ _ | .eaBxD16 _ _ => true
  | .eaAxAl _ | .eaCxCl _ | .eaDxDl _ | .eaBxBl _ | .eaSpAh _ | .eaBpCh _ | .eaSiDh _ | .eaDiBh _ => true
  | .segOverrideES | .segOverrideCS | .segOverrideSS | .segOverrideDS => true

end Sys2Proof
end

