-- ==== Sys2Proof/Decode.lean ====
section
/-! DEFINITION. Bytes to instructions and back: the effective address byte (30_encoding.md R41, R51), the instruction table
(R53, 93_implementation_defined.md GK9), the decoder of 30_encoding.md section 9, the encoder, the assembler's choice of form
(40_effective_address.md R101), and the reading of one row of spec/opcode_table.json. -/

namespace Sys2Proof

/-- Least significant byte first (20_memory.md R26): `b1 ++ b0 = b1 * 256 + b0` (30_encoding.md R46). -/
def wordOf (b0 b1 : Byte) : Word := BitVec.ofNat 16 (b1.toNat * 256 + b0.toNat)

/-- Bits 7:0 (R26). -/
def loByte (w : Word) : Byte := BitVec.ofNat 8 w.toNat

/-- Bits 15:8 (R26). -/
def hiByte (w : Word) : Byte := BitVec.ofNat 8 (w.toNat / 256)

/-- The number of a column or row (R41). -/
def Digit.num : Digit → Nat
  | .d0 => 0 | .d1 => 1 | .d2 => 2 | .d3 => 3 | .d4 => 4 | .d5 => 5 | .d6 => 6 | .d7 => 7

/-- The column or row of a three-bit number (R41). -/
def Digit.ofNum : Nat → Digit
  | 0 => .d0 | 1 => .d1 | 2 => .d2 | 3 => .d3 | 4 => .d4 | 5 => .d5 | 6 => .d6 | _ => .d7

/-- The 16-bit register of a number (10_state.md R7). -/
def Digit.rw : Digit → Reg16
  | .d0 => .ax | .d1 => .cx | .d2 => .dx | .d3 => .bx | .d4 => .sp | .d5 => .bp | .d6 => .si | .d7 => .di

/-- The 8-bit register of a number (R8). -/
def Digit.rb : Digit → Reg8
  | .d0 => .al | .d1 => .cl | .d2 => .dl | .d3 => .bl | .d4 => .ah | .d5 => .ch | .d6 => .dh | .d7 => .bh

/-- The number of a 16-bit register (R7). -/
def Reg16.digit : Reg16 → Digit
  | .ax => .d0 | .cx => .d1 | .dx => .d2 | .bx => .d3 | .sp => .d4 | .bp => .d5 | .si => .d6 | .di => .d7

/-- The number of an 8-bit register (R8). -/
def Reg8.digit : Reg8 → Digit
  | .al => .d0 | .cl => .d1 | .dl => .d2 | .bl => .d3 | .ah => .d4 | .ch => .d5 | .dh => .d6 | .bh => .d7

/-- The register sum of a row within a group (40_effective_address.md R61). -/
def Digit.regSum : Digit → RegSum
  | .d0 => .bxSi | .d1 => .bxDi | .d2 => .bpSi | .d3 => .bpDi | .d4 => .si | .d5 => .di | .d6 => .bp | .d7 => .bx

/-- The row number of a register sum (R61). -/
def RegSum.digit : RegSum → Digit
  | .bxSi => .d0 | .bxDi => .d1 | .bpSi => .d2 | .bpDi => .d3 | .si => .d4 | .di => .d5 | .bp => .d6 | .bx => .d7

/-- Bits 7:6 of an effective address byte (R41). -/
def eabMod (b : Byte) : Nat := b.toNat / 64

/-- Bits 5:3, the column (R41 to R43). -/
def eabColumn (b : Byte) : Digit := Digit.ofNum (b.toNat / 8 % 8)

/-- Bits 2:0 (R41). -/
def eabRm (b : Byte) : Digit := Digit.ofNum (b.toNat % 8)

/-- The value in row-group `mod`, column `c`, row `rm` of the table: `g * 64 + c * 8 + r` (R41). -/
def eabOf (mod : Nat) (c rm : Digit) : Byte := BitVec.ofNat 8 (mod * 64 + c.num * 8 + rm.num)

/-- `displen` (30_encoding.md R44), of the operand. -/
def Ea.dispLen : Ea → Nat
  | .sum _ => 0
  | .var _ => 2
  | .sumD8 _ _ => 1
  | .sumD16 _ _ => 2
  | .reg _ => 0

/-- Why a run of bytes is no instruction. -/
inductive DecodeError where
  /-- The opcode byte, or opcode byte and digit, has no row in the table (41_instructions.md R119). -/
  | opcodeNotInTable
  /-- The bytes end inside the instruction (70_reset_and_hazards.md R138). -/
  | truncated
  deriving DecidableEq, Repr

/-- What a decoder answers: the thing decoded and the bytes after it, or the reason there is none. -/
abbrev Decoded (α : Type) := Except DecodeError (α × List Byte)

/-- Read one byte and go on. -/
def withByte {α : Type} (bs : List Byte) (k : Byte → List Byte → Decoded α) : Decoded α :=
  match bs with
  | [] => .error .truncated
  | b :: rest => k b rest

/-- Read a 16-bit quantity, least significant byte first (R26, R46, R47), and go on. -/
def withWord {α : Type} (bs : List Byte) (k : Word → List Byte → Decoded α) : Decoded α :=
  withByte bs fun b0 bs => withByte bs fun b1 bs => k (wordOf b0 b1) bs

/-- Read the displacement the effective address byte calls for (R44) and go on with the operand it completes (R51). -/
def withDisp {α : Type} (eab : Byte) (bs : List Byte) (k : Ea → List Byte → Decoded α) : Decoded α :=
  match eabMod eab with
  | 0 => match (eabRm eab).regSum with
    | .bp => withWord bs fun d bs => k (.var d) bs
    | r => k (.sum r) bs
  | 1 => withByte bs fun d bs => k (.sumD8 (eabRm eab).regSum d) bs
  | 2 => withWord bs fun d bs => k (.sumD16 (eabRm eab).regSum d) bs
  | _ => k (.reg (eabRm eab)) bs

/-- The operand-form row of an operand, with its column (R51). An operand without an encoding is given `[BP] + d8` with a zero
byte, as the assembler gives it (R50). -/
def Instr.ofEa (c : Digit) : Ea → Instr
  | .sum .bxSi => .eaBxSi c
  | .sum .bxDi => .eaBxDi c
  | .sum .bpSi => .eaBpSi c
  | .sum .bpDi => .eaBpDi c
  | .sum .si => .eaSi c
  | .sum .di => .eaDi c
  | .sum .bp => .eaBpD8 c 0
  | .sum .bx => .eaBx c
  | .var d => .eaVar c d
  | .sumD8 .bxSi d => .eaBxSiD8 c d
  | .sumD8 .bxDi d => .eaBxDiD8 c d
  | .sumD8 .bpSi d => .eaBpSiD8 c d
  | .sumD8 .bpDi d => .eaBpDiD8 c d
  | .sumD8 .si d => .eaSiD8 c d
  | .sumD8 .di d => .eaDiD8 c d
  | .sumD8 .bp d => .eaBpD8 c d
  | .sumD8 .bx d => .eaBxD8 c d
  | .sumD16 .bxSi d => .eaBxSiD16 c d
  | .sumD16 .bxDi d => .eaBxDiD16 c d
  | .sumD16 .bpSi d => .eaBpSiD16 c d
  | .sumD16 .bpDi d => .eaBpDiD16 c d
  | .sumD16 .si d => .eaSiD16 c d
  | .sumD16 .di d => .eaDiD16 c d
  | .sumD16 .bp d => .eaBpD16 c d
  | .sumD16 .bx d => .eaBxD16 c d
  | .reg .d0 => .eaAxAl c
  | .reg .d1 => .eaCxCl c
  | .reg .d2 => .eaDxDl c
  | .reg .d3 => .eaBxBl c
  | .reg .d4 => .eaSpAh c
  | .reg .d5 => .eaBpCh c
  | .reg .d6 => .eaSiDh c
  | .reg .d7 => .eaDiBh c

/-- The column and operand an operand-form row stands for; none for the other rows (R51). -/
def Instr.eaForm? : Instr → Option (Digit × Ea)
  | .eaBxSi c => some (c, .sum .bxSi)
  | .eaBxDi c => some (c, .sum .bxDi)
  | .eaBpSi c => some (c, .sum .bpSi)
  | .eaBpDi c => some (c, .sum .bpDi)
  | .eaSi c => some (c, .sum .si)
  | .eaDi c => some (c, .sum .di)
  | .eaVar c d => some (c, .var d)
  | .eaBx c => some (c, .sum .bx)
  | .eaBxSiD8 c d => some (c, .sumD8 .bxSi d)
  | .eaBxDiD8 c d => some (c, .sumD8 .bxDi d)
  | .eaBpSiD8 c d => some (c, .sumD8 .bpSi d)
  | .eaBpDiD8 c d => some (c, .sumD8 .bpDi d)
  | .eaSiD8 c d => some (c, .sumD8 .si d)
  | .eaDiD8 c d => some (c, .sumD8 .di d)
  | .eaBpD8 c d => some (c, .sumD8 .bp d)
  | .eaBxD8 c d => some (c, .sumD8 .bx d)
  | .eaBxSiD16 c d => some (c, .sumD16 .bxSi d)
  | .eaBxDiD16 c d => some (c, .sumD16 .bxDi d)
  | .eaBpSiD16 c d => some (c, .sumD16 .bpSi d)
  | .eaBpDiD16 c d => some (c, .sumD16 .bpDi d)
  | .eaSiD16 c d => some (c, .sumD16 .si d)
  | .eaDiD16 c d => some (c, .sumD16 .di d)
  | .eaBpD16 c d => some (c, .sumD16 .bp d)
  | .eaBxD16 c d => some (c, .sumD16 .bx d)
  | .eaAxAl c => some (c, .reg .d0)
  | .eaCxCl c => some (c, .reg .d1)
  | .eaDxDl c => some (c, .reg .d2)
  | .eaBxBl c => some (c, .reg .d3)
  | .eaSpAh c => some (c, .reg .d4)
  | .eaBpCh c => some (c, .reg .d5)
  | .eaSiDh c => some (c, .reg .d6)
  | .eaDiBh c => some (c, .reg .d7)
  | .subEbIb _ _ | .addEwRw _ _ | .movRwEw _ _ | .movEwRw _ _ | .movRbEb _ _ | .movEwIw _ _ | .incEb _ | .incEw _ => none
  | .segOverrideES | .segOverrideCS | .segOverrideSS | .segOverrideDS => none

/-- Where the decoder stands when it reads a row: an operand-form row is read where an effective address byte is expected, the
others where an opcode byte is (R54). -/
def Instr.position (i : Instr) : Position :=
  match i.eaForm? with
  | some _ => .eaByte
  | none => .opcodeByte

/-- Whether a row is a segment override byte: part of the instruction it stands before (R54), counted with it by R48. -/
def Instr.isOverride (i : Instr) : Bool :=
  decide (i ∈ [Instr.segOverrideES, .segOverrideCS, .segOverrideSS, .segOverrideDS])

/-- The eight instructions of `instr_table`. -/
inductive OpKind where
  | subEbIb | addEwRw | movRwEw | movEwRw | movRbEb | movEwIw | incEb | incEw
  deriving DecidableEq, Repr

/-- A row of `instr_table`: the opcode byte, the digit of a `/digit` instruction (none: `/r`), the instruction. -/
structure OpRow where
  opcode : Byte
  digit : Option Digit
  kind : OpKind
  deriving DecidableEq, Repr

/-- `instr_table` (decision D25): the source's one row (R53) and, PRESUMED from GK9, the seven the spec offers beside it
(41_instructions.md R104 to R110, R119; log entry 26). -/
def instrTable : List OpRow :=
  [⟨0x80, some .d5, .subEbIb⟩, ⟨0x01, none, .addEwRw⟩, ⟨0x8B, none, .movRwEw⟩, ⟨0x89, none, .movEwRw⟩,
   ⟨0x8A, none, .movRbEb⟩, ⟨0xC7, some .d0, .movEwIw⟩, ⟨0xFE, some .d0, .incEb⟩, ⟨0xFF, some .d0, .incEw⟩]

/-- Whether a row holds for an opcode byte and a column (R42, R43). -/
def OpRow.admits (row : OpRow) (opcode : Byte) (c : Digit) : Bool :=
  decide (row.opcode = opcode) && (decide (row.digit = none) || decide (row.digit = some c))

/-- Whether some row has the opcode byte: only then does an effective address byte follow (R48). -/
def opcodeKnown (opcode : Byte) : Bool := instrTable.any fun row => decide (row.opcode = opcode)

/-- The row of an opcode byte and a column, if there is one (R119). -/
def findRow (opcode : Byte) (c : Digit) : Option OpRow := instrTable.find? fun row => row.admits opcode c

/-- The instruction of a row, once its operand and column are known: a `/r` column names the register operand (R42), and the
immediate follows the displacement (R47). -/
def OpKind.build (kind : OpKind) (c : Digit) (ea : Ea) (bs : List Byte) : Decoded Instr :=
  match kind with
  | .subEbIb => withByte bs fun ib bs => .ok (.subEbIb ea ib, bs)
  | .addEwRw => .ok (.addEwRw ea c.rw, bs)
  | .movRwEw => .ok (.movRwEw c.rw ea, bs)
  | .movEwRw => .ok (.movEwRw ea c.rw, bs)
  | .movRbEb => .ok (.movRbEb c.rb ea, bs)
  | .movEwIw => withWord bs fun iw bs => .ok (.movEwIw ea iw, bs)
  | .incEb => .ok (.incEb ea, bs)
  | .incEw => .ok (.incEw ea, bs)

/-- The segment register a byte names as a segment override (R54). -/
def overrideOf (b : Byte) : Option SegReg :=
  if b = Config.overrideBytes .es then some .es
  else if b = Config.overrideBytes .cs then some .cs
  else if b = Config.overrideBytes .ss then some .ss
  else if b = Config.overrideBytes .ds then some .ds
  else none

/-- The prefix row of a segment register (R54). -/
def prefixInstr : SegReg → Instr
  | .es => .segOverrideES
  | .cs => .segOverrideCS
  | .ss => .segOverrideSS
  | .ds => .segOverrideDS

/-- The effective address byte alone, with its displacement: always exactly one operand-form row (R52). -/
def decodeForm (bs : List Byte) : Decoded Instr :=
  withByte bs fun eab bs => withDisp eab bs fun ea bs => .ok (Instr.ofEa (eabColumn eab) ea, bs)

/-- After the opcode byte: the effective address byte, the row it selects, the displacement, the immediate (30_encoding.md
section 9; the order of the two refusals is log entry 32). -/
def decodeOp (opcode : Byte) (bs : List Byte) : Decoded Instr :=
  if opcodeKnown opcode then
    withByte bs fun eab bs =>
      match findRow opcode (eabColumn eab) with
      | none => .error .opcodeNotInTable
      | some row => withDisp eab bs fun ea bs => row.kind.build (eabColumn eab) ea bs
  else .error .opcodeNotInTable

/-- A segment override byte, or an instruction (R48, R54). -/
def decodeOpcode (bs : List Byte) : Decoded Instr :=
  withByte bs fun b bs =>
    match overrideOf b with
    | some sr => .ok (prefixInstr sr, bs)
    | none => decodeOp b bs

/-- The decoder: the row read from the bytes at a position, and the bytes after it. -/
def decode (p : Position) (bs : List Byte) : Decoded Instr :=
  match p with
  | .opcodeByte => decodeOpcode bs
  | .eaByte => decodeForm bs

/-- The bytes of an effective-address operand with a column: the effective address byte and the displacement (R41, R44 to R46).
`sum .bp` has no encoding and is given the simple variable's byte without a displacement; `Ea.wf` excludes it. -/
def encodeEa (c : Digit) : Ea → List Byte
  | .sum r => [eabOf 0 c r.digit]
  | .var d => [eabOf 0 c .d6, loByte d, hiByte d]
  | .sumD8 r d => [eabOf 1 c r.digit, d]
  | .sumD16 r d => [eabOf 2 c r.digit, loByte d, hiByte d]
  | .reg i => [eabOf 3 c i]

/-- The bytes of an operand-form row. -/
def encodeForm (i : Instr) : List Byte :=
  match i.eaForm? with
  | some (c, ea) => encodeEa c ea
  | none => []

/-- The bytes of a row, in the order of R40. -/
def encode (i : Instr) : List Byte :=
  match i with
  | .subEbIb ea ib => 0x80 :: encodeEa .d5 ea ++ [ib]
  | .addEwRw ea r => 0x01 :: encodeEa r.digit ea
  | .movRwEw r ea => 0x8B :: encodeEa r.digit ea
  | .movEwRw ea r => 0x89 :: encodeEa r.digit ea
  | .movRbEb r ea => 0x8A :: encodeEa r.digit ea
  | .movEwIw ea iw => 0xC7 :: encodeEa .d0 ea ++ [loByte iw, hiByte iw]
  | .incEb ea => 0xFE :: encodeEa .d0 ea
  | .incEw ea => 0xFF :: encodeEa .d0 ea
  | .segOverrideES => [Config.overrideBytes .es]
  | .segOverrideCS => [Config.overrideBytes .cs]
  | .segOverrideSS => [Config.overrideBytes .ss]
  | .segOverrideDS => [Config.overrideBytes .ds]
  | .eaBxSi _ => encodeForm i
  | .eaBxDi _ => encodeForm i
  | .eaBpSi _ => encodeForm i
  | .eaBpDi _ => encodeForm i
  | .eaSi _ => encodeForm i
  | .eaDi _ => encodeForm i
  | .eaVar _ _ => encodeForm i
  | .eaBx _ => encodeForm i
  | .eaBxSiD8 _ _ => encodeForm i
  | .eaBxDiD8 _ _ => encodeForm i
  | .eaBpSiD8 _ _ => encodeForm i
  | .eaBpDiD8 _ _ => encodeForm i
  | .eaSiD8 _ _ => encodeForm i
  | .eaDiD8 _ _ => encodeForm i
  | .eaBpD8 _ _ => encodeForm i
  | .eaBxD8 _ _ => encodeForm i
  | .eaBxSiD16 _ _ => encodeForm i
  | .eaBxDiD16 _ _ => encodeForm i
  | .eaBpSiD16 _ _ => encodeForm i
  | .eaBpDiD16 _ _ => encodeForm i
  | .eaSiD16 _ _ => encodeForm i
  | .eaDiD16 _ _ => encodeForm i
  | .eaBpD16 _ _ => encodeForm i
  | .eaBxD16 _ _ => encodeForm i
  | .eaAxAl _ => encodeForm i
  | .eaCxCl _ => encodeForm i
  | .eaDxDl _ => encodeForm i
  | .eaBxBl _ => encodeForm i
  | .eaSpAh _ => encodeForm i
  | .eaBpCh _ => encodeForm i
  | .eaSiDh _ => encodeForm i
  | .eaDiBh _ => encodeForm i

/-- The length of a row in bytes, a prefix not counted (R48): a prefix byte, an operand form, or opcode byte, effective address
byte, displacement and immediate. -/
def Instr.byteLength (i : Instr) : Nat :=
  match i with
  | .subEbIb ea _ => 2 + ea.dispLen + 1
  | .movEwIw ea _ => 2 + ea.dispLen + 2
  | .addEwRw ea _ | .movRwEw _ ea | .movEwRw ea _ | .movRbEb _ ea | .incEb ea | .incEw ea => 2 + ea.dispLen
  | .segOverrideES | .segOverrideCS | .segOverrideSS | .segOverrideDS => 1
  | .eaBxSi _ => 1
  | .eaBxDi _ => 1
  | .eaBpSi _ => 1
  | .eaBpDi _ => 1
  | .eaSi _ => 1
  | .eaDi _ => 1
  | .eaVar _ _ => 3
  | .eaBx _ => 1
  | .eaBxSiD8 _ _ => 2
  | .eaBxDiD8 _ _ => 2
  | .eaBpSiD8 _ _ => 2
  | .eaBpDiD8 _ _ => 2
  | .eaSiD8 _ _ => 2
  | .eaDiD8 _ _ => 2
  | .eaBpD8 _ _ => 2
  | .eaBxD8 _ _ => 2
  | .eaBxSiD16 _ _ => 3
  | .eaBxDiD16 _ _ => 3
  | .eaBpSiD16 _ _ => 3
  | .eaBpDiD16 _ _ => 3
  | .eaSiD16 _ _ => 3
  | .eaDiD16 _ _ => 3
  | .eaBpD16 _ _ => 3
  | .eaBxD16 _ _ => 3
  | .eaAxAl _ => 1
  | .eaCxCl _ => 1
  | .eaDxDl _ => 1
  | .eaBxBl _ => 1
  | .eaSpAh _ => 1
  | .eaBpCh _ => 1
  | .eaSiDh _ => 1
  | .eaDiBh _ => 1

/-- The form an assembler picks for a register set and a constant (40_effective_address.md R101): a variable always by `d16`, the
shortest displacement otherwise, `[BP]` as `[BP] + d8` with zero (30_encoding.md R50). -/
def assembleEa (regs : Option RegSum) (k : Int) : Ea :=
  match regs with
  | none => .var (BitVec.ofInt 16 k)
  | some r =>
    if k = 0 ∧ r ≠ .bp then .sum r
    else if -128 ≤ k ∧ k ≤ 127 then .sumD8 r (BitVec.ofInt 8 k)
    else .sumD16 r (BitVec.ofInt 16 k)

/-- Whether a row of spec/opcode_table.json is a prefix row: one byte, a segment override byte (log entry 4). -/
def tableIsPrefix (nbits w : Nat) : Bool := decide (nbits = 8) && (overrideOf (BitVec.ofNat 8 w)).isSome

/-- Where the decoder stands for a row of spec/opcode_table.json: a two-byte row is an instruction; a one-byte row is a prefix
when the byte is a segment override byte, else an operand form (log entry 4). -/
def tablePosition (nbits w : Nat) : Position :=
  if nbits = 8 ∧ tableIsPrefix nbits w = false then .eaByte else .opcodeByte

/-- The bytes of a row of the table at ascending offsets, filled up with zeros to the longest instruction. The table numbers a
two-byte row `opcode * 256 + ea_byte` (30_encoding.md section 9): the opcode byte, first in memory, is bits 15:8. -/
def tableBytes (nbits w : Nat) : List Byte :=
  if nbits = 8 then [BitVec.ofNat 8 w, 0, 0, 0, 0, 0]
  else [BitVec.ofNat 8 (w / 256), BitVec.ofNat 8 w, 0, 0, 0, 0]

/-- The instruction the decoder reads from a row of spec/opcode_table.json. -/
def decodeTableWord (nbits w : Nat) : Option Instr :=
  match decode (tablePosition nbits w) (tableBytes nbits w) with
  | .ok (i, _) => some i
  | .error _ => none

end Sys2Proof
end

