-- ==== Sys2Proof/Machine/State.lean ====
section
/-! DEFINITION. The state the spec gives the machine (10_state.md; 70_reset_and_hazards.md R138), the reasons a step stops, the
state after reset. INVENTORY.md's '## State' lists every field with its rule. -/

namespace Sys2Proof.Machine

/-- Memory: the locations that do not read as `Config.unwrittenByte`, with their bytes, in ascending order (20_memory.md R17,
R27). Indexed by the 20-bit location (R23). -/
abbrev Memory := List Host.Cell

/-- The canonical form from location `lo` upward. -/
def Memory.wfFrom (lo : Nat) : Memory → Bool
  | [] => true
  | (a, v) :: m => decide (lo ≤ a) && decide (a < 1048576) && decide (v ≠ Config.unwrittenByte) && Memory.wfFrom (a + 1) m

/-- The canonical form: locations strictly rising and below 2^20, no entry equal to what an unlisted location reads as. -/
def Memory.wf (m : Memory) : Bool := Memory.wfFrom 0 m

/-- Everything the machine holds. -/
structure State where
  /-- The general registers (R7); the 8-bit registers are their halves (R9, log entry 14). -/
  ax : Word
  cx : Word
  dx : Word
  bx : Word
  sp : Word
  bp : Word
  si : Word
  di : Word
  /-- The segment registers (R12, R13, log entry 15). -/
  es : Word
  cs : Word
  ss : Word
  ds : Word
  /-- The program counter: the offset in `CS` of the instruction's first byte, its override byte included (R14, log entry 19). -/
  ip : Word
  /-- FLAGS (R15). -/
  flags : Word
  /-- The 2^20 memory locations (R17). -/
  mem : Memory
  /-- The pending segment override: decoder state of one instruction (R19). -/
  ovr : Option SegReg
  /-- The operand `DecodeEA` yields, where an operand-form row was read by itself (R61, log entry 1). -/
  operand : Option Operand
  /-- What the decoder expects of the next byte (30_encoding.md R54, log entry 2). -/
  expects : Position
  /-- The MODEL's own field: the next step reads a segment override byte by itself, as a row of the table, and no more. No step sets
  it; only `State.withFetchWord` does (log entry 3). -/
  prefixAlone : Bool
  /-- How many bytes of the program `P` stand before `ip` (R138, log entry 10): `ip0` is `ip` minus this. -/
  progDone : Nat
  /-- How many bytes of the program `P` stand at and after `ip` (R138, log entry 10). -/
  progLeft : Nat
  /-- The MODEL's own field: how many values of `Config.freeFlags` have been drawn (R15, log entry 5). -/
  freeCount : Nat
  deriving DecidableEq, Repr

/-- Why the machine stops by itself. The spec has no exception and nothing that stops the processor (60_exceptions.md R120). -/
inductive Fault where
  /-- Raised by a step at the end of the program (70_reset_and_hazards.md R138): the state is final, the run has ended; no error.
  Safe: the spec says nothing of what the hardware does next (log entry 11). -/
  | runEnded
  deriving DecidableEq, Repr

/-- Why the model gives no meaning: the spec's closed list (60_exceptions.md R121), under the spec's names. -/
inductive Refusal where
  /-- Raised by an arm of `exec` that has no meaning yet. Safe. -/
  | notModelled (mnemonic : String)
  /-- Raised by the fetch: no row for the opcode byte, or for opcode byte and digit (41_instructions.md R119). Safe. -/
  | opcodeNotInTable
  /-- Raised by `segRegOf`: column 4 to 7 as a segment register (10_state.md R12). No row of the table has such an operand.
  Safe. -/
  | segColumn4To7
  /-- Raised by `readEA32` and `writeEA32`: a register row under an `ed` operand (20_memory.md R30). No row of the table has one.
  Safe. -/
  | edRegisterForm
  /-- Raised by a segment override byte after another (30_encoding.md R55). Safe. -/
  | multiplePrefixes
  /-- Raised by the fetch: the program ends inside an instruction (R138). Safe. -/
  | programEndsInsideInstruction
  /-- Raised by a store to a byte of the program (20_memory.md R37). Safe. -/
  | selfModifyingCode
  deriving DecidableEq, Repr

/-- What an instruction answers. -/
abbrev Res := Host.Outcome State Fault Refusal

/-- The state after reset. The spec states no value (10_state.md R20); these are the 8086's where GK11 has one (PRESUMED, log
entry 7), else zero (DESIGN CHOICE, log entry 8), with memory unlisted (log entry 9), the decoder at an instruction boundary (R19,
R20) and no program loaded (log entry 10). -/
def State.reset : State where
  ax := 0
  cx := 0
  dx := 0
  bx := 0
  sp := 0
  bp := 0
  si := 0
  di := 0
  es := 0
  cs := 0xFFFF
  ss := 0
  ds := 0
  ip := 0
  flags := 0
  mem := []
  ovr := none
  operand := none
  expects := .opcodeByte
  prefixAlone := false
  progDone := 0
  progLeft := 0
  freeCount := 0

end Sys2Proof.Machine
end

