-- ==== Sys2Proof/Machine/Ops.lean ====
section
/-! DEFINITION. The named operations over registers, memory, the program and the end of an instruction. The spec describes no
exception entry and no return (60_exceptions.md R120, R125, R126), so there is none here. -/

namespace Sys2Proof.Machine

/-! ## Registers (10_state.md R7 to R9, R12) -/

/-- `rw[i]` (R7). -/
def State.readRw (s : State) : Reg16 → Word
  | .ax => s.ax
  | .cx => s.cx
  | .dx => s.dx
  | .bx => s.bx
  | .sp => s.sp
  | .bp => s.bp
  | .si => s.si
  | .di => s.di

/-- `rw[i] <- v` (R7). -/
def State.writeRw (s : State) (r : Reg16) (v : Word) : State :=
  match r with
  | .ax => { s with ax := v }
  | .cx => { s with cx := v }
  | .dx => { s with dx := v }
  | .bx => { s with bx := v }
  | .sp => { s with sp := v }
  | .bp => { s with bp := v }
  | .si => { s with si := v }
  | .di => { s with di := v }

/-- The 16-bit register an 8-bit register is a half of (R9). -/
def regWhole : Reg8 → Reg16
  | .al | .ah => .ax
  | .cl | .ch => .cx
  | .dl | .dh => .dx
  | .bl | .bh => .bx

/-- Whether an 8-bit register is bits 15:8 of its 16-bit register (R9). -/
def regIsHigh : Reg8 → Bool
  | .al | .cl | .dl | .bl => false
  | .ah | .ch | .dh | .bh => true

/-- `rb[i]` (R9). -/
def State.readRb (s : State) (r : Reg8) : Byte :=
  if regIsHigh r then hiByte (s.readRw (regWhole r)) else loByte (s.readRw (regWhole r))

/-- `rb[i] <- v`: one half of a 16-bit register, the other half unchanged (R9). -/
def State.writeRb (s : State) (r : Reg8) (v : Byte) : State :=
  if regIsHigh r then s.writeRw (regWhole r) (wordOf (loByte (s.readRw (regWhole r))) v)
  else s.writeRw (regWhole r) (wordOf v (hiByte (s.readRw (regWhole r))))

/-- `s[i]` (R12). -/
def State.readSeg (s : State) : SegReg → Word
  | .es => s.es
  | .cs => s.cs
  | .ss => s.ss
  | .ds => s.ds

/-- `s[i] <- v` (R12; 00_scope.md R6). No instruction of the table writes a segment register (70_reset_and_hazards.md R134), so no
meaning calls it (log entry 30). -/
def State.writeSeg (s : State) (r : SegReg) (v : Word) : State :=
  match r with
  | .es => { s with es := v }
  | .cs => { s with cs := v }
  | .ss => { s with ss := v }
  | .ds => { s with ds := v }

/-! ## Memory (20_memory.md R25 to R28) -/

/-- The byte at a location of a memory; what is not listed reads as `Config.unwrittenByte` (R27, log entry 9). -/
def memRead : Memory → Nat → Byte
  | [], _ => Config.unwrittenByte
  | (k, v) :: m, a => if a = k then v else memRead m a

/-- Replace the byte at a location and no other (R27), keeping the canonical form. -/
def memWrite : Memory → Nat → Byte → Memory
  | [], a, v => if v = Config.unwrittenByte then [] else [(a, v)]
  | (k, w) :: m, a, v =>
    if a < k then (if v = Config.unwrittenByte then (k, w) :: m else (a, v) :: (k, w) :: m)
    else if a = k then (if v = Config.unwrittenByte then m else (a, v) :: m)
    else (k, w) :: memWrite m a v

/-- `phys(seg, off) = (seg * 16 + off) mod 2^20` (R25, log entry 16). -/
def phys (seg off : Word) : Loc := BitVec.ofNat 20 (seg.toNat * 16 + off.toNat)

/-- `MemRead(addr, 1)` (R27). -/
def State.readByte (s : State) (a : Loc) : Byte := memRead s.mem a.toNat

/-- `MemWrite(addr, 1, v)` (R27). -/
def State.writeByte (s : State) (a : Loc) (v : Byte) : State := { s with mem := memWrite s.mem a.toNat v }

/-- `SegRead(seg, off, 1)` (R28). -/
def State.segRead8 (s : State) (seg off : Word) : Byte := s.readByte (phys seg off)

/-- `SegRead(seg, off, 2)`: the second byte's offset is taken modulo 2^16 (R28, log entry 17). -/
def State.segRead16 (s : State) (seg off : Word) : Word := wordOf (s.segRead8 seg off) (s.segRead8 seg (off + 1))

/-- `SegRead(seg, off, 4)`, of an `ed` operand (R28, R30). -/
def State.segRead32 (s : State) (seg off : Word) : BitVec 32 :=
  BitVec.ofNat 32 ((s.segRead16 seg (off + 2)).toNat * 65536 + (s.segRead16 seg off).toNat)

/-- `SegWrite(seg, off, 1, v)` (R28). -/
def State.segWrite8 (s : State) (seg off : Word) (v : Byte) : State := s.writeByte (phys seg off) v

/-- `SegWrite(seg, off, 2, v)` (R28). -/
def State.segWrite16 (s : State) (seg off : Word) (v : Word) : State :=
  (s.segWrite8 seg off (loByte v)).segWrite8 seg (off + 1) (hiByte v)

/-- `SegWrite(seg, off, 4, v)`, of an `ed` operand (R28, R30). -/
def State.segWrite32 (s : State) (seg off : Word) (v : BitVec 32) : State :=
  (s.segWrite16 seg off (BitVec.ofNat 16 v.toNat)).segWrite16 seg (off + 2) (BitVec.ofNat 16 (v.toNat / 65536))

/-! ## The program (70_reset_and_hazards.md R138) -/

/-- `|P|` (R138). -/
def State.progLen (s : State) : Nat := s.progDone + s.progLeft

/-- `ip0`, the offset of the program's first byte (R138). -/
def State.progBase (s : State) : Word := s.ip - BitVec.ofNat 16 s.progDone

/-- Whether a location holds one of the program's own bytes: it lies in the window of `CS`, at an offset less than `|P|` past
`ip0` (R37 "the check is on 20-bit locations", R138). -/
def State.inProgram (s : State) (a : Loc) : Bool :=
  decide ((a - phys s.cs 0).toNat < 65536) && decide ((BitVec.ofNat 16 (a - phys s.cs 0).toNat - s.progBase).toNat < s.progLen)

/-- Whether a store of `n` bytes would land on a byte of the program (R37, decision D14, log entry 12). -/
def State.hitsProgram (s : State) (seg off : Word) : Nat → Bool
  | 0 => false
  | n + 1 => s.hitsProgram seg off n || s.inProgram (phys seg (off + BitVec.ofNat 16 n))

/-! ## The end of an instruction (10_state.md R14, R19; 30_encoding.md R48) -/

/-- `prefix` of the length rule: 1 if a segment override byte stands before the instruction (R48). -/
def State.prefixLen (s : State) : Nat :=
  match s.ovr with
  | none => 0
  | some _ => 1

/-- `ip <- ip +_16 len`, with the override byte counted in `len` (R14, R48), and the decoder's state of the instruction emptied
(R19). -/
def State.retire (s : State) (n : Nat) : State :=
  { s with
    ip := s.ip + BitVec.ofNat 16 (s.prefixLen + n)
    progDone := s.progDone + (s.prefixLen + n)
    progLeft := s.progLeft - (s.prefixLen + n)
    ovr := none
    operand := none }

/-- Go on from a next state; a stop stays. -/
def andThen (r : Res) (k : State → Res) : Res :=
  match r with
  | .next s => k s
  | .fault f => .fault f
  | .refused f => .refused f

end Sys2Proof.Machine
end

