-- ==== Sys2Proof/Machine/Flags.lean ====
section
/-! DEFINITION. FLAGS after an arithmetic instruction: `havoc(FLAGS)` (10_state.md R15, decision D8), and the functions of
93_implementation_defined.md GK7 a model may put in its place as `flags_fn`. No rule reads a flag. -/

namespace Sys2Proof.Machine

/-- The bit positions GK7 gives: `CF` 0, `PF` 2, `AF` 4, `ZF` 6, `SF` 7, `OF` 11 (PRESUMED, log entry 6). -/
def packFlags (cf pf af zf sf of : Bool) : Word :=
  (if cf then 0x0001 else 0) ||| (if pf then 0x0004 else 0) ||| (if af then 0x0010 else 0) |||
  (if zf then 0x0040 else 0) ||| (if sf then 0x0080 else 0) ||| (if of then 0x0800 else 0)

/-- The six flags' bits; the others, `TF IF DF` among them, are changed by none of these instructions (GK7). -/
def flagsMask : Word := 0x08D5

/-- Whether the low 8 bits of a value contain an even number of ones (GK7). -/
def parityEven {w : Nat} (r : BitVec w) : Bool :=
  !(r.getLsbD 0 ^^ r.getLsbD 1 ^^ r.getLsbD 2 ^^ r.getLsbD 3 ^^ r.getLsbD 4 ^^ r.getLsbD 5 ^^ r.getLsbD 6 ^^ r.getLsbD 7)

/-- The six flags of a subtraction `r = (a - b) mod 2^w` (GK7). -/
def subFlags {w : Nat} (a b : BitVec w) : Word :=
  packFlags (decide (a.toNat < b.toNat)) (parityEven (a - b)) (decide (a.toNat % 16 < b.toNat % 16))
    (decide (a - b = 0)) (a - b).msb (a.msb != b.msb && (a - b).msb != a.msb)

/-- The six flags of an addition `r = (a + b) mod 2^w` (GK7). -/
def addFlags {w : Nat} (a b : BitVec w) : Word :=
  packFlags (decide (2 ^ w ≤ a.toNat + b.toNat)) (parityEven (a + b)) (decide (16 ≤ a.toNat % 16 + b.toNat % 16))
    (decide (a + b = 0)) (a + b).msb (a.msb == b.msb && (a + b).msb != a.msb)

/-- FLAGS after a subtraction, by GK7. -/
def flagsAfterSub {w : Nat} (old : Word) (a b : BitVec w) : Word := (old &&& ~~~flagsMask) ||| subFlags a b

/-- FLAGS after an addition, by GK7. -/
def flagsAfterAdd {w : Nat} (old : Word) (a b : BitVec w) : Word := (old &&& ~~~flagsMask) ||| addFlags a b

/-- FLAGS after `INC`, by GK7: "as an addition of 1 except that it leaves `CF` unchanged". -/
def flagsAfterInc {w : Nat} (old : Word) (a : BitVec w) : Word :=
  (flagsAfterAdd old a 1 &&& ~~~0x0001) ||| (old &&& 0x0001)

/-- What an arithmetic instruction does to FLAGS: `havoc(FLAGS)` draws a free value (R15, D8, log entry 5); under the policy `gk7`
FLAGS takes the value that `flags_fn` computes (log entry 6). -/
def State.setFlags (s : State) (computed : Word) : State :=
  match Config.flagsPolicy with
  | .havoc => { s with flags := Config.freeFlags s.freeCount, freeCount := s.freeCount + 1 }
  | .gk7 => { s with flags := computed }

end Sys2Proof.Machine
end

