-- ==== Sys2Proof/Machine/Operands.lean ====
section
/-! DEFINITION. The operand forms: `DecodeEA` (40_effective_address.md R61, R100), the segment of a memory operand (R94, R95),
`ReadEA` and `WriteEA` at every width (R97, R98), and a column as a segment register (10_state.md R12). -/

namespace Sys2Proof.Machine

/-- The value of a register sum, modulo 2^16 (R61, R100). -/
def State.sumValue (s : State) : RegSum → Word
  | .bxSi => s.bx + s.si
  | .bxDi => s.bx + s.di
  | .bpSi => s.bp + s.si
  | .bpDi => s.bp + s.di
  | .si => s.si
  | .di => s.di
  | .bp => s.bp
  | .bx => s.bx

/-- The default segment register: `SS` when the sum contains `BP`, else `DS` (R94). -/
def sumSeg : RegSum → SegReg
  | .bpSi | .bpDi | .bp => .ss
  | .bxSi | .bxDi | .si | .di | .bx => .ds

/-- `DecodeEA` (R61). The simple variable's offset is its `d16` and its default segment `DS` (R68); `d8` is sign-extended
(30_encoding.md R45). -/
def decodeEA (ea : Ea) (s : State) : Operand :=
  match ea with
  | .sum r => .mem (s.sumValue r) (sumSeg r)
  | .var d => .mem d .ds
  | .sumD8 r d => .mem (s.sumValue r + d.signExtend 16) (sumSeg r)
  | .sumD16 r d => .mem (s.sumValue r + d) (sumSeg r)
  | .reg i => .reg i

/-- `SegOf`: the override where there is one, else the default (R95, log entry 21). -/
def segOf (defseg : SegReg) (ovr : Option SegReg) : SegReg :=
  match ovr with
  | none => defseg
  | some sr => sr

/-- The value of the segment register a memory operand of the present instruction uses (R95, R97). -/
def State.eaSeg (s : State) (defseg : SegReg) : Word := s.readSeg (segOf defseg s.ovr)

/-- Keep the operand an operand-form row yields: "the operand is ..." (R62 to R93, log entry 1). -/
def State.latch (s : State) (op : Operand) : State := { s with operand := some op }

/-- `ReadEA(op, 1, ovr)` (R97). -/
def State.readEA8 (s : State) : Operand → Byte
  | .reg i => s.readRb i.rb
  | .mem off defseg => s.segRead8 (s.eaSeg defseg) off

/-- `ReadEA(op, 2, ovr)` (R97). -/
def State.readEA16 (s : State) : Operand → Word
  | .reg i => s.readRw i.rw
  | .mem off defseg => s.segRead16 (s.eaSeg defseg) off

/-- `ReadEA(op, 4, ovr)` (R97; 20_memory.md R30, log entry 30). -/
def State.readEA32 (s : State) : Operand → Except Refusal (BitVec 32)
  | .reg _ => .error .edRegisterForm
  | .mem off defseg => .ok (s.segRead32 (s.eaSeg defseg) off)

/-- `WriteEA(op, 1, v, ovr)` (R98), "subject to the refusal of self-modifying code" (20_memory.md R37). -/
def State.writeEA8 (s : State) (op : Operand) (v : Byte) : Res :=
  match op with
  | .reg i => .next (s.writeRb i.rb v)
  | .mem off defseg =>
    if s.hitsProgram (s.eaSeg defseg) off 1 then .refused .selfModifyingCode
    else .next (s.segWrite8 (s.eaSeg defseg) off v)

/-- `WriteEA(op, 2, v, ovr)` (R98, R37). -/
def State.writeEA16 (s : State) (op : Operand) (v : Word) : Res :=
  match op with
  | .reg i => .next (s.writeRw i.rw v)
  | .mem off defseg =>
    if s.hitsProgram (s.eaSeg defseg) off 2 then .refused .selfModifyingCode
    else .next (s.segWrite16 (s.eaSeg defseg) off v)

/-- `WriteEA(op, 4, v, ovr)` (R98, R30, R37, log entry 30). -/
def State.writeEA32 (s : State) (op : Operand) (v : BitVec 32) : Res :=
  match op with
  | .reg _ => .refused .edRegisterForm
  | .mem off defseg =>
    if s.hitsProgram (s.eaSeg defseg) off 4 then .refused .selfModifyingCode
    else .next (s.segWrite32 (s.eaSeg defseg) off v)

/-- A column as a segment register operand `s`: `ES CS SS DS` for 0 to 3, none for 4 to 7 (10_state.md R12, log entry 30). -/
def segRegOf : Digit → Except Refusal SegReg
  | .d0 => .ok .es
  | .d1 => .ok .cs
  | .d2 => .ok .ss
  | .d3 => .ok .ds
  | .d4 | .d5 | .d6 | .d7 => .error .segColumn4To7

end Sys2Proof.Machine
end

