-- ==== Sys2Proof/Machine/Arith.lean ====
section
/-! DEFINITION. The arithmetic instructions: `SUB eb,ib`, `ADD ew,rw`, `INC eb`, `INC ew` (41_instructions.md R103, R104, R109, R110,
R117). The operand is decoded once, from the registers as the instruction begins (40_effective_address.md R99). -/

namespace Sys2Proof.Machine

/-- `SUB eb,ib` (R103): `r <- a -_8 ib; WriteEA; havoc(FLAGS); ip <- ip +_16 len`, `len` = 3 + displen + prefix. -/
def execSubEbIb (ea : Ea) (ib : Byte) (s : State) : Res :=
  let op := decodeEA ea s
  let a := s.readEA8 op
  andThen (s.writeEA8 op (a - ib)) fun t => .next ((t.setFlags (flagsAfterSub s.flags a ib)).retire (2 + ea.dispLen + 1))

/-- `ADD ew,rw` (R104): `WriteEA(op, 2, a +_16 b); havoc(FLAGS); ip <- ip +_16 len`, `len` = 2 + displen + prefix. -/
def execAddEwRw (ea : Ea) (r : Reg16) (s : State) : Res :=
  let op := decodeEA ea s
  let a := s.readEA16 op
  let b := s.readRw r
  andThen (s.writeEA16 op (a + b)) fun t => .next ((t.setFlags (flagsAfterAdd s.flags a b)).retire (2 + ea.dispLen))

/-- `INC eb` (R109): `WriteEA(op, 1, a +_8 1); havoc(FLAGS); ip <- ip +_16 len`. -/
def execIncEb (ea : Ea) (s : State) : Res :=
  let op := decodeEA ea s
  let a := s.readEA8 op
  andThen (s.writeEA8 op (a + 1)) fun t => .next ((t.setFlags (flagsAfterInc s.flags a)).retire (2 + ea.dispLen))

/-- `INC ew` (R110): `WriteEA(op, 2, a +_16 1); havoc(FLAGS); ip <- ip +_16 len`. -/
def execIncEw (ea : Ea) (s : State) : Res :=
  let op := decodeEA ea s
  let a := s.readEA16 op
  andThen (s.writeEA16 op (a + 1)) fun t => .next ((t.setFlags (flagsAfterInc s.flags a)).retire (2 + ea.dispLen))

end Sys2Proof.Machine
end

