-- ==== Sys2Proof/Machine/EaForms.lean ====
section
/-! DEFINITION. The 32 operand-form rows, each from its own rule (40_effective_address.md R62 to R93): the row yields an operand, an
offset with its default segment register or a register number, and writes no register, no flag and no memory. The column `c` takes
no part (R61). That each agrees with `DecodeEA` is an obligation of its own. Log entries 1 and 2. -/

namespace Sys2Proof.Machine

/-- `[BX + SI]` (R62). -/
def execEaBxSi (_c : Digit) (s : State) : Res := .next (s.latch (.mem (s.bx + s.si) .ds))

/-- `[BX + DI]` (R63). -/
def execEaBxDi (_c : Digit) (s : State) : Res := .next (s.latch (.mem (s.bx + s.di) .ds))

/-- `[BP + SI]` (R64). -/
def execEaBpSi (_c : Digit) (s : State) : Res := .next (s.latch (.mem (s.bp + s.si) .ss))

/-- `[BP + DI]` (R65). -/
def execEaBpDi (_c : Digit) (s : State) : Res := .next (s.latch (.mem (s.bp + s.di) .ss))

/-- `[SI]` (R66). -/
def execEaSi (_c : Digit) (s : State) : Res := .next (s.latch (.mem s.si .ds))

/-- `[DI]` (R67). -/
def execEaDi (_c : Digit) (s : State) : Res := .next (s.latch (.mem s.di .ds))

/-- `d16 (simple var)` (R68): `off <- b1 ++ b0`, `DS`; `BP` takes no part. -/
def execEaVar (_c : Digit) (d : Word) (s : State) : Res := .next (s.latch (.mem d .ds))

/-- `[BX]` (R69). -/
def execEaBx (_c : Digit) (s : State) : Res := .next (s.latch (.mem s.bx .ds))

/-- `[BX + SI] + d8` (R70). -/
def execEaBxSiD8 (_c : Digit) (d : Byte) (s : State) : Res := .next (s.latch (.mem (s.bx + s.si + d.signExtend 16) .ds))

/-- `[BX + DI] + d8` (R71). -/
def execEaBxDiD8 (_c : Digit) (d : Byte) (s : State) : Res := .next (s.latch (.mem (s.bx + s.di + d.signExtend 16) .ds))

/-- `[BP + SI] + d8` (R72). -/
def execEaBpSiD8 (_c : Digit) (d : Byte) (s : State) : Res := .next (s.latch (.mem (s.bp + s.si + d.signExtend 16) .ss))

/-- `[BP + DI] + d8` (R73). -/
def execEaBpDiD8 (_c : Digit) (d : Byte) (s : State) : Res := .next (s.latch (.mem (s.bp + s.di + d.signExtend 16) .ss))

/-- `[SI] + d8` (R74). -/
def execEaSiD8 (_c : Digit) (d : Byte) (s : State) : Res := .next (s.latch (.mem (s.si + d.signExtend 16) .ds))

/-- `[DI] + d8` (R75). -/
def execEaDiD8 (_c : Digit) (d : Byte) (s : State) : Res := .next (s.latch (.mem (s.di + d.signExtend 16) .ds))

/-- `[BP] + d8` (R76). -/
def execEaBpD8 (_c : Digit) (d : Byte) (s : State) : Res := .next (s.latch (.mem (s.bp + d.signExtend 16) .ss))

/-- `[BX] + d8` (R77). -/
def execEaBxD8 (_c : Digit) (d : Byte) (s : State) : Res := .next (s.latch (.mem (s.bx + d.signExtend 16) .ds))

/-- `[BX + SI] + d16` (R78). -/
def execEaBxSiD16 (_c : Digit) (d : Word) (s : State) : Res := .next (s.latch (.mem (s.bx + s.si + d) .ds))

/-- `[BX + DI] + d16` (R79). -/
def execEaBxDiD16 (_c : Digit) (d : Word) (s : State) : Res := .next (s.latch (.mem (s.bx + s.di + d) .ds))

/-- `[BP + SI] + d16` (R80). -/
def execEaBpSiD16 (_c : Digit) (d : Word) (s : State) : Res := .next (s.latch (.mem (s.bp + s.si + d) .ss))

/-- `[BP + DI] + d16` (R81). -/
def execEaBpDiD16 (_c : Digit) (d : Word) (s : State) : Res := .next (s.latch (.mem (s.bp + s.di + d) .ss))

/-- `[SI] + d16` (R82). -/
def execEaSiD16 (_c : Digit) (d : Word) (s : State) : Res := .next (s.latch (.mem (s.si + d) .ds))

/-- `[DI] + d16` (R83). -/
def execEaDiD16 (_c : Digit) (d : Word) (s : State) : Res := .next (s.latch (.mem (s.di + d) .ds))

/-- `[BP] + d16` (R84). -/
def execEaBpD16 (_c : Digit) (d : Word) (s : State) : Res := .next (s.latch (.mem (s.bp + d) .ss))

/-- `[BX] + d16` (R85). -/
def execEaBxD16 (_c : Digit) (d : Word) (s : State) : Res := .next (s.latch (.mem (s.bx + d) .ds))

/-- `ew=AX eb=AL` (R86): register number 0. -/
def execEaAxAl (_c : Digit) (s : State) : Res := .next (s.latch (.reg .d0))

/-- `ew=CX eb=CL` (R87): register number 1. -/
def execEaCxCl (_c : Digit) (s : State) : Res := .next (s.latch (.reg .d1))

/-- `ew=DX eb=DL` (R88): register number 2. -/
def execEaDxDl (_c : Digit) (s : State) : Res := .next (s.latch (.reg .d2))

/-- `ew=BX eb=BL` (R89): register number 3. -/
def execEaBxBl (_c : Digit) (s : State) : Res := .next (s.latch (.reg .d3))

/-- `ew=SP eb=AH` (R90): register number 4. -/
def execEaSpAh (_c : Digit) (s : State) : Res := .next (s.latch (.reg .d4))

/-- `ew=BP eb=CH` (R91): register number 5. -/
def execEaBpCh (_c : Digit) (s : State) : Res := .next (s.latch (.reg .d5))

/-- `ew=SI eb=DH` (R92): register number 6. -/
def execEaSiDh (_c : Digit) (s : State) : Res := .next (s.latch (.reg .d6))

/-- `ew=DI eb=BH` (R93): register number 7. -/
def execEaDiBh (_c : Digit) (s : State) : Res := .next (s.latch (.reg .d7))

end Sys2Proof.Machine
end

