-- ==== Sys2Proof/Machine/Move.lean ====
section
/-! DEFINITION. The moves: `MOV rw,ew`, `MOV ew,rw`, `MOV rb,eb`, `MOV ew,iw` (41_instructions.md R105 to R108). No flag is named and
FLAGS is left as it is. -/

namespace Sys2Proof.Machine

/-- `MOV rw,ew` (R105): `rw[reg] <- ReadEA(op, 2, ovr); ip <- ip +_16 len`; the address is read from the old registers (R99). -/
def execMovRwEw (r : Reg16) (ea : Ea) (s : State) : Res :=
  .next ((s.writeRw r (s.readEA16 (decodeEA ea s))).retire (2 + ea.dispLen))

/-- `MOV ew,rw` (R106): `WriteEA(op, 2, rw[reg], ovr); ip <- ip +_16 len`. -/
def execMovEwRw (ea : Ea) (r : Reg16) (s : State) : Res :=
  andThen (s.writeEA16 (decodeEA ea s) (s.readRw r)) fun t => .next (t.retire (2 + ea.dispLen))

/-- `MOV rb,eb` (R107): `rb[reg] <- ReadEA(op, 1, ovr); ip <- ip +_16 len`. -/
def execMovRbEb (r : Reg8) (ea : Ea) (s : State) : Res :=
  .next ((s.writeRb r (s.readEA8 (decodeEA ea s))).retire (2 + ea.dispLen))

/-- `MOV ew,iw` (R108): `WriteEA(op, 2, iw, ovr); ip <- ip +_16 len`, `len` = 4 + displen + prefix. -/
def execMovEwIw (ea : Ea) (iw : Word) (s : State) : Res :=
  andThen (s.writeEA16 (decodeEA ea s) iw) fun t => .next (t.retire (2 + ea.dispLen + 2))

end Sys2Proof.Machine
end

