-- ==== Sys2Proof/Machine/Prefix.lean ====
section
/-! DEFINITION. The segment override bytes (30_encoding.md R54, R55; 40_effective_address.md R95). The byte is decoder state of the
instruction it stands before (10_state.md R19): `ip` stays at the instruction's first byte (R14) and the length rule counts the
byte when the instruction ends (R48). The step that reads the byte goes on with the instruction (Machine/Run.lean). -/

namespace Sys2Proof.Machine

/-- A segment override byte: it names a segment register for the one instruction after it (R54); a second one is
`refuse(multiple_prefixes)` (R55, log entry 22). The request to read the byte by itself is spent (log entry 3). -/
def State.override (s : State) (sr : SegReg) : Res :=
  match s.ovr with
  | none => .next { s with ovr := some sr, prefixAlone := false }
  | some _ => .refused .multiplePrefixes

/-- The byte `26`: `ES` (R54). -/
def execSegOverrideES (s : State) : Res := s.override .es

/-- The byte `2E`: `CS` (R54). -/
def execSegOverrideCS (s : State) : Res := s.override .cs

/-- The byte `36`: `SS` (R54). -/
def execSegOverrideSS (s : State) : Res := s.override .ss

/-- The byte `3E`: `DS` (R54). -/
def execSegOverrideDS (s : State) : Res := s.override .ds

end Sys2Proof.Machine
end

