-- ==== Sys2Proof/Machine/Dispatch.lean ====
section
/-! DEFINITION. One arm per constructor of Instr, each a direct call of its meaning. -/

namespace Sys2Proof.Machine

def exec (i : Instr) (s : State) : Host.Outcome State Fault Refusal :=
  match i with
  | .eaBxSi c => Sys2Proof.Machine.execEaBxSi c s
  | .eaBxDi c => Sys2Proof.Machine.execEaBxDi c s
  | .eaBpSi c => Sys2Proof.Machine.execEaBpSi c s
  | .eaBpDi c => Sys2Proof.Machine.execEaBpDi c s
  | .eaSi c => Sys2Proof.Machine.execEaSi c s
  | .eaDi c => Sys2Proof.Machine.execEaDi c s
  | .eaVar c d => Sys2Proof.Machine.execEaVar c d s
  | .eaBx c => Sys2Proof.Machine.execEaBx c s
  | .eaBxSiD8 c d => Sys2Proof.Machine.execEaBxSiD8 c d s
  | .eaBxDiD8 c d => Sys2Proof.Machine.execEaBxDiD8 c d s
  | .eaBpSiD8 c d => Sys2Proof.Machine.execEaBpSiD8 c d s
  | .eaBpDiD8 c d => Sys2Proof.Machine.execEaBpDiD8 c d s
  | .eaSiD8 c d => Sys2Proof.Machine.execEaSiD8 c d s
  | .eaDiD8 c d => Sys2Proof.Machine.execEaDiD8 c d s
  | .eaBpD8 c d => Sys2Proof.Machine.execEaBpD8 c d s
  | .eaBxD8 c d => Sys2Proof.Machine.execEaBxD8 c d s
  | .eaBxSiD16 c d => Sys2Proof.Machine.execEaBxSiD16 c d s
  | .eaBxDiD16 c d => Sys2Proof.Machine.execEaBxDiD16 c d s
  | .eaBpSiD16 c d => Sys2Proof.Machine.execEaBpSiD16 c d s
  | .eaBpDiD16 c d => Sys2Proof.Machine.execEaBpDiD16 c d s
  | .eaSiD16 c d => Sys2Proof.Machine.execEaSiD16 c d s
  | .eaDiD16 c d => Sys2Proof.Machine.execEaDiD16 c d s
  | .eaBpD16 c d => Sys2Proof.Machine.execEaBpD16 c d s
  | .eaBxD16 c d => Sys2Proof.Machine.execEaBxD16 c d s
  | .eaAxAl c => Sys2Proof.Machine.execEaAxAl c s
  | .eaCxCl c => Sys2Proof.Machine.execEaCxCl c s
  | .eaDxDl c => Sys2Proof.Machine.execEaDxDl c s
  | .eaBxBl c => Sys2Proof.Machine.execEaBxBl c s
  | .eaSpAh c => Sys2Proof.Machine.execEaSpAh c s
  | .eaBpCh c => Sys2Proof.Machine.execEaBpCh c s
  | .eaSiDh c => Sys2Proof.Machine.execEaSiDh c s
  | .eaDiBh c => Sys2Proof.Machine.execEaDiBh c s
  | .subEbIb ea ib => Sys2Proof.Machine.execSubEbIb ea ib s
  | .addEwRw ea r => Sys2Proof.Machine.execAddEwRw ea r s
  | .movRwEw r ea => Sys2Proof.Machine.execMovRwEw r ea s
  | .movEwRw ea r => Sys2Proof.Machine.execMovEwRw ea r s
  | .movRbEb r ea => Sys2Proof.Machine.execMovRbEb r ea s
  | .movEwIw ea iw => Sys2Proof.Machine.execMovEwIw ea iw s
  | .incEb ea => Sys2Proof.Machine.execIncEb ea s
  | .incEw ea => Sys2Proof.Machine.execIncEw ea s
  | .segOverrideES => Sys2Proof.Machine.execSegOverrideES s
  | .segOverrideCS => Sys2Proof.Machine.execSegOverrideCS s
  | .segOverrideSS => Sys2Proof.Machine.execSegOverrideSS s
  | .segOverrideDS => Sys2Proof.Machine.execSegOverrideDS s

end Sys2Proof.Machine
end

