-- ==== Sys2Proof/Machine/Fetch.lean ====
section
/-! DEFINITION. Fetching: the bytes the decoder may read (10_state.md R14, 70_reset_and_hazards.md R138), the decoder run on them,
the end of a run, and the loading of a program. -/

namespace Sys2Proof.Machine

/-- How many bytes the longest instruction has, its prefix not counted (30_encoding.md R48). -/
def longestInstr : Nat := 6

/-- The byte `k` places after the instruction's first byte: `SegRead(CS, ip +_16 k, 1)` (R14). -/
def State.codeByte (s : State) (k : Nat) : Byte := s.segRead8 s.cs (s.ip + BitVec.ofNat 16 k)

/-- The bytes of the program from the next one to be decoded, past a pending override byte, as many as an instruction may need;
the program's end cuts them short (R138). -/
def State.codeBytes (s : State) : List Byte :=
  (List.range (min longestInstr (s.progLeft - s.prefixLen))).map fun k => s.codeByte (s.prefixLen + k)

/-- The end of the run: `ip = ip0 + |P|` at an instruction boundary (R138, log entries 11, 13). -/
def State.runEnded (s : State) : Bool :=
  decide (s.progLeft = 0) && decide (s.ovr = none) && decide (s.expects = .opcodeByte)

/-- The refusal of a run of bytes that is no instruction (60_exceptions.md R121). -/
def refusalOf : DecodeError → Refusal
  | .opcodeNotInTable => .opcodeNotInTable
  | .truncated => .programEndsInsideInstruction

/-- The row at the place the decoder stands. -/
def State.fetch (s : State) : Except Refusal Instr :=
  match decode s.expects s.codeBytes with
  | .ok (i, _) => .ok i
  | .error e => .error (refusalOf e)

/-- Put bytes at the offsets of `CS` from `off` on. Loading is not an instruction: no refusal of R37 applies. -/
def State.placeBytes (s : State) (off : Word) : List Byte → State
  | [] => s
  | b :: bs => (s.segWrite8 s.cs off b).placeBytes (off + 1) bs

/-- Load a program from outside the machine at `CS:ip` and stand at its first byte (R138, log entry 10). -/
def State.loadProgram (s : State) (bytes : List Byte) : State :=
  { s.placeBytes s.ip bytes with progDone := 0, progLeft := bytes.length }

end Sys2Proof.Machine
end

