-- ==== Sys2Proof/Machine/Run.lean ====
section
/-! DEFINITION. Fetching and running: one row of the table, and one whole instruction with the override byte before it
(30_encoding.md R40, R48, R54; 70_reset_and_hazards.md R138: a program of `k` instructions takes `k` steps). -/

namespace Sys2Proof.Machine

/-- Run the row at the place the decoder stands. -/
def runRow (s : State) : Res :=
  match s.fetch with
  | .error r => .refused r
  | .ok i => exec i s

/-- Run the instruction at the place the decoder stands: a segment override byte is read first and is part of it (R54), unless it
was asked for by itself (log entry 3). A second override byte is then a row run with one pending, which is refused (R55). -/
def runInstr (s : State) : Res :=
  match s.fetch with
  | .error r => .refused r
  | .ok i => if i.isOverride && !s.prefixAlone then andThen (exec i s) runRow else exec i s

end Sys2Proof.Machine
end

