-- ==== Sys2Proof/Machine/Step.lean ====
section
/-! DEFINITION. One step: the instruction at the place the decoder stands, run (40_effective_address.md R99: each instruction sees all
effects of the earlier ones); and the placing of one row where the next step fetches it. -/

namespace Sys2Proof.Machine

/-- One step of the machine: at the end of the program the run has ended; else the next instruction, its override byte included, is
decoded and run (70_reset_and_hazards.md R138). -/
def step (s : State) : Host.Outcome State Fault Refusal := if s.runEnded then .fault .runEnded else runInstr s

/-- The state with one row of spec/opcode_table.json stored where `step` fetches next: its bytes at `CS:ip` (past a pending
override byte), the decoder expecting what the row is, a prefix row asked for by itself, and the program reaching at least over these
bytes (log entries 2, 3, 4, 10). -/
def State.withFetchWord (s : State) (nbits w : Nat) : State :=
  { s.placeBytes (s.ip + BitVec.ofNat 16 s.prefixLen) (tableBytes nbits w) with
    expects := tablePosition nbits w
    prefixAlone := tableIsPrefix nbits w
    progLeft := max s.progLeft (s.prefixLen + (tableBytes nbits w).length) }

end Sys2Proof.Machine
end

