-- ==== Sys2Proof/Safety.lean ====
section
/-! DEFINITION. What claims are about: a state between instructions, the invariant every step keeps, the bytes of the program, the
condition under which a store is carried out, and the work left in a run. -/

namespace Sys2Proof.Machine

/-- The machine stands between two instructions: "it is empty at the start of every instruction" (10_state.md R19). -/
def State.AtBoundary (s : State) : Prop := s.expects = .opcodeByte ∧ s.ovr = none ∧ s.operand = none

/-- The bytes of an instruction with the segment override before it, if there is one (30_encoding.md R40, R54). -/
def instrBytes : Option SegReg × Instr → List Byte
  | (none, i) => encode i
  | (some sr, i) => Config.overrideBytes sr :: encode i

/-- The bytes of a program given as its instructions in order (70_reset_and_hazards.md R138). -/
def programBytes (p : List (Option SegReg × Instr)) : List Byte := p.flatMap instrBytes

/-- An instruction a program can hold: a row of kind `op_ea` whose operand has an encoding. -/
def IsInstruction (i : Instr) : Prop := i.wf = true ∧ i.position = .opcodeByte ∧ i.isOverride = false

/-- Byte `k` of the program: the location `phys(CS, ip0 +_16 k)` (70_reset_and_hazards.md R138). -/
def State.programByte (s : State) (k : Nat) : Byte := s.segRead8 s.cs (s.progBase + BitVec.ofNat 16 k)

/-- What holds in every state a run can reach, and what every step keeps. -/
structure State.Inv (s : State) : Prop where
  /-- Memory is in its canonical form. -/
  memWf : s.mem.wf = true
  /-- "`ip0 + |P| <= 0x10000`" (R138). -/
  programFits : s.progBase.toNat + s.progLen ≤ 65536
  /-- Decoder state is empty at the start of every instruction (R19). -/
  noOperand : s.expects = .opcodeByte → s.operand = none
  /-- A pending override was read from the byte at `ip`: `ip` is the offset of the instruction's first byte, "the segment override
  byte when there is one" (R14). -/
  overrideRead : ∀ sr, s.ovr = some sr → 0 < s.progLeft ∧ s.codeByte 0 = Config.overrideBytes sr

/-- A store of `n` bytes to an operand is carried out: a register always, memory where none of the bytes is the program's
(20_memory.md R37). -/
def State.Storable (s : State) (n : Nat) : Operand → Prop
  | .reg _ => True
  | .mem off defseg => s.hitsProgram (s.eaSeg defseg) off n = false

/-- What an instruction of `len` bytes (its prefix not counted) leaves beside its own effect: `ip` past it (R14, R48), the segment
registers and what the decoder expects as they were, the decoder's state of the instruction empty (R19), the program advanced. -/
structure State.Ends (s t : State) (len : Nat) : Prop where
  ip : t.ip = s.ip + BitVec.ofNat 16 (s.prefixLen + len)
  segs : ∀ q, t.readSeg q = s.readSeg q
  expects : t.expects = s.expects
  prefixAlone : t.prefixAlone = s.prefixAlone
  ovr : t.ovr = none
  operand : t.operand = none
  progDone : t.progDone = s.progDone + (s.prefixLen + len)
  progLeft : t.progLeft = s.progLeft - (s.prefixLen + len)

/-- No general register is changed. -/
def State.RegsKept (s t : State) : Prop := ∀ q, t.readRw q = s.readRw q

/-- No general register but one is changed. -/
def State.RegsKeptBut (s t : State) (r : Reg16) : Prop := ∀ q, q ≠ r → t.readRw q = s.readRw q

/-- No byte of memory is changed. -/
def State.MemKept (s t : State) : Prop := ∀ a, t.readByte a = s.readByte a

/-- No byte of memory is changed but the one at an offset of a segment. -/
def State.MemKeptBut8 (s t : State) (seg off : Word) : Prop := ∀ a, a ≠ phys seg off → t.readByte a = s.readByte a

/-- No byte of memory is changed but the two of a word at an offset of a segment (20_memory.md R28). -/
def State.MemKeptBut16 (s t : State) (seg off : Word) : Prop :=
  ∀ a, a ≠ phys seg off → a ≠ phys seg (off + 1) → t.readByte a = s.readByte a

/-- FLAGS is as it was, and no free value is drawn. -/
def State.FlagsKept (s t : State) : Prop := t.flags = s.flags ∧ t.freeCount = s.freeCount

/-- `havoc(FLAGS)` (10_state.md R15): FLAGS holds the next free value, of which nothing is known (log entry 5). -/
def State.FlagsFree (s t : State) : Prop := t.flags = Config.freeFlags s.freeCount ∧ t.freeCount = s.freeCount + 1

/-- An outcome with FLAGS struck out: what is left must not depend on FLAGS (R15: "No rule of this spec reads it"). -/
def withoutFlags : Res → Res
  | .next t => .next { t with flags := 0 }
  | .fault f => .fault f
  | .refused r => .refused r

/-- `DecodeEA` as the pseudocode of 40_effective_address.md R61 writes it, over the effective address byte and the two bytes after
it; the model's own path is `decodeForm` and `decodeEA`. -/
def pseudoDecodeEA (s : State) (eab next0 next1 : Byte) : Operand :=
  let mod := eab.extractLsb' 6 2
  let rm := eab.extractLsb' 0 3
  let word : Word := BitVec.ofNat 16 (next1.toNat * 256 + next0.toNat)
  let sum : Word :=
    if rm = 0 then s.bx + s.si else if rm = 1 then s.bx + s.di else if rm = 2 then s.bp + s.si else if rm = 3 then s.bp + s.di
    else if rm = 4 then s.si else if rm = 5 then s.di else if rm = 6 then s.bp else s.bx
  let disp : Word := if mod = 0 then 0 else if mod = 1 then next0.signExtend 16 else word
  if mod = 3 then .reg (Digit.ofNum rm.toNat)
  else if mod = 0 ∧ rm = 6 then .mem word .ds
  else .mem (sum + disp) (if rm = 2 ∨ rm = 3 ∨ rm = 6 then .ss else .ds)

/-- What is left of a run: two for each byte of the program still to run, and one where no override byte is pending, as an override
byte may be run by itself (log entry 3). -/
def State.work (s : State) : Nat := 2 * s.progLeft + (1 - s.prefixLen)

end Sys2Proof.Machine
end

