-- ==== Sys2Proof/Certificates/Slice0/Obligations.lean ====
section
/-! DEFINITION. The statements for the provers. Each docstring names the rules of spec/ it rests on and the log entries of what in it
is the model's or the spec's own choice. -/

open Sys2Proof Sys2Proof.Machine

/-- The layout R40, the effective address byte R41 and R51, columns R42 and R43, displacement R44 and R46, immediate R47, opcode bytes R53 (seven of them PRESUMED, log entry 26), prefix bytes R54 (PRESUMED, log entry 21). -/
def Obligations.DecodeEncodeRoundTrip : Prop :=
  ∀ (i : Instr) (rest : List Byte), i.wf = true → decode i.position (encode i ++ rest) = .ok (i, rest)

/-- R48 (the length is told by the bytes read in order), with the layout R40, R46, R47 and the bytes R51, R53 (seven opcode bytes PRESUMED, log entry 26), R54 (PRESUMED, log entry 21). -/
def Obligations.DecodeOnlyReadsEncodings : Prop :=
  ∀ (p : Position) (bs rest : List Byte) (i : Instr), decode p bs = .ok (i, rest) → i.wf = true ∧ i.position = p ∧ bs = encode i ++ rest

/-- R138 (the spec's decision D26); the order in which the two refusals are looked for is log entry 32. -/
def Obligations.TruncatedEncodingIsTruncated : Prop :=
  ∀ (i : Instr) (n : Nat), i.wf = true → n < (encode i).length → decode i.position ((encode i).take n) = .error .truncated

/-- R51: the table transcribed whole, its header lines for s, rb and rw included. -/
def Obligations.EffectiveAddressTable : Prop :=
  (∀ (c : Digit) (n0 n1 : Byte) (rest : List Byte),
    decode .eaByte (BitVec.ofNat 8 (0x00 + 8 * c.num) :: n0 :: n1 :: rest) = .ok (.eaBxSi c, n0 :: n1 :: rest) ∧
    decode .eaByte (BitVec.ofNat 8 (0x01 + 8 * c.num) :: n0 :: n1 :: rest) = .ok (.eaBxDi c, n0 :: n1 :: rest) ∧
    decode .eaByte (BitVec.ofNat 8 (0x02 + 8 * c.num) :: n0 :: n1 :: rest) = .ok (.eaBpSi c, n0 :: n1 :: rest) ∧
    decode .eaByte (BitVec.ofNat 8 (0x03 + 8 * c.num) :: n0 :: n1 :: rest) = .ok (.eaBpDi c, n0 :: n1 :: rest) ∧
    decode .eaByte (BitVec.ofNat 8 (0x04 + 8 * c.num) :: n0 :: n1 :: rest) = .ok (.eaSi c, n0 :: n1 :: rest) ∧
    decode .eaByte (BitVec.ofNat 8 (0x05 + 8 * c.num) :: n0 :: n1 :: rest) = .ok (.eaDi c, n0 :: n1 :: rest) ∧
    decode .eaByte (BitVec.ofNat 8 (0x06 + 8 * c.num) :: n0 :: n1 :: rest) = .ok (.eaVar c (wordOf n0 n1), rest) ∧
    decode .eaByte (BitVec.ofNat 8 (0x07 + 8 * c.num) :: n0 :: n1 :: rest) = .ok (.eaBx c, n0 :: n1 :: rest) ∧
    decode .eaByte (BitVec.ofNat 8 (0x40 + 8 * c.num) :: n0 :: n1 :: rest) = .ok (.eaBxSiD8 c n0, n1 :: rest) ∧
    decode .eaByte (BitVec.ofNat 8 (0x41 + 8 * c.num) :: n0 :: n1 :: rest) = .ok (.eaBxDiD8 c n0, n1 :: rest) ∧
    decode .eaByte (BitVec.ofNat 8 (0x42 + 8 * c.num) :: n0 :: n1 :: rest) = .ok (.eaBpSiD8 c n0, n1 :: rest) ∧
    decode .eaByte (BitVec.ofNat 8 (0x43 + 8 * c.num) :: n0 :: n1 :: rest) = .ok (.eaBpDiD8 c n0, n1 :: rest) ∧
    decode .eaByte (BitVec.ofNat 8 (0x44 + 8 * c.num) :: n0 :: n1 :: rest) = .ok (.eaSiD8 c n0, n1 :: rest) ∧
    decode .eaByte (BitVec.ofNat 8 (0x45 + 8 * c.num) :: n0 :: n1 :: rest) = .ok (.eaDiD8 c n0, n1 :: rest) ∧
    decode .eaByte (BitVec.ofNat 8 (0x46 + 8 * c.num) :: n0 :: n1 :: rest) = .ok (.eaBpD8 c n0, n1 :: rest) ∧
    decode .eaByte (BitVec.ofNat 8 (0x47 + 8 * c.num) :: n0 :: n1 :: rest) = .ok (.eaBxD8 c n0, n1 :: rest) ∧
    decode .eaByte (BitVec.ofNat 8 (0x80 + 8 * c.num) :: n0 :: n1 :: rest) = .ok (.eaBxSiD16 c (wordOf n0 n1), rest) ∧
    decode .eaByte (BitVec.ofNat 8 (0x81 + 8 * c.num) :: n0 :: n1 :: rest) = .ok (.eaBxDiD16 c (wordOf n0 n1), rest) ∧
    decode .eaByte (BitVec.ofNat 8 (0x82 + 8 * c.num) :: n0 :: n1 :: rest) = .ok (.eaBpSiD16 c (wordOf n0 n1), rest) ∧
    decode .eaByte (BitVec.ofNat 8 (0x83 + 8 * c.num) :: n0 :: n1 :: rest) = .ok (.eaBpDiD16 c (wordOf n0 n1), rest) ∧
    decode .eaByte (BitVec.ofNat 8 (0x84 + 8 * c.num) :: n0 :: n1 :: rest) = .ok (.eaSiD16 c (wordOf n0 n1), rest) ∧
    decode .eaByte (BitVec.ofNat 8 (0x85 + 8 * c.num) :: n0 :: n1 :: rest) = .ok (.eaDiD16 c (wordOf n0 n1), rest) ∧
    decode .eaByte (BitVec.ofNat 8 (0x86 + 8 * c.num) :: n0 :: n1 :: rest) = .ok (.eaBpD16 c (wordOf n0 n1), rest) ∧
    decode .eaByte (BitVec.ofNat 8 (0x87 + 8 * c.num) :: n0 :: n1 :: rest) = .ok (.eaBxD16 c (wordOf n0 n1), rest) ∧
    decode .eaByte (BitVec.ofNat 8 (0xC0 + 8 * c.num) :: n0 :: n1 :: rest) = .ok (.eaAxAl c, n0 :: n1 :: rest) ∧
    decode .eaByte (BitVec.ofNat 8 (0xC1 + 8 * c.num) :: n0 :: n1 :: rest) = .ok (.eaCxCl c, n0 :: n1 :: rest) ∧
    decode .eaByte (BitVec.ofNat 8 (0xC2 + 8 * c.num) :: n0 :: n1 :: rest) = .ok (.eaDxDl c, n0 :: n1 :: rest) ∧
    decode .eaByte (BitVec.ofNat 8 (0xC3 + 8 * c.num) :: n0 :: n1 :: rest) = .ok (.eaBxBl c, n0 :: n1 :: rest) ∧
    decode .eaByte (BitVec.ofNat 8 (0xC4 + 8 * c.num) :: n0 :: n1 :: rest) = .ok (.eaSpAh c, n0 :: n1 :: rest) ∧
    decode .eaByte (BitVec.ofNat 8 (0xC5 + 8 * c.num) :: n0 :: n1 :: rest) = .ok (.eaBpCh c, n0 :: n1 :: rest) ∧
    decode .eaByte (BitVec.ofNat 8 (0xC6 + 8 * c.num) :: n0 :: n1 :: rest) = .ok (.eaSiDh c, n0 :: n1 :: rest) ∧
    decode .eaByte (BitVec.ofNat 8 (0xC7 + 8 * c.num) :: n0 :: n1 :: rest) = .ok (.eaDiBh c, n0 :: n1 :: rest)) ∧
  (∀ b0 b1 : Byte, (wordOf b0 b1).toNat = b1.toNat * 256 + b0.toNat) ∧
  (∀ b : Byte, ∃ (m : Fin 4) (c rm : Digit), b = BitVec.ofNat 8 (m.val * 64 + c.num * 8 + rm.num) ∧
    ∀ (m' : Fin 4) (c' rm' : Digit), b = BitVec.ofNat 8 (m'.val * 64 + c'.num * 8 + rm'.num) → m' = m ∧ c' = c ∧ rm' = rm) ∧
  [Digit.d0, .d1, .d2, .d3, .d4, .d5, .d6, .d7].map Digit.num = [0, 1, 2, 3, 4, 5, 6, 7] ∧
  [Digit.d0, .d1, .d2, .d3, .d4, .d5, .d6, .d7].map Digit.regSum = [.bxSi, .bxDi, .bpSi, .bpDi, .si, .di, .bp, .bx] ∧
  [Digit.d0, .d1, .d2, .d3].map segRegOf = [.ok .es, .ok .cs, .ok .ss, .ok .ds] ∧
  [Digit.d0, .d1, .d2, .d3, .d4, .d5, .d6, .d7].map Digit.rb = [.al, .cl, .dl, .bl, .ah, .ch, .dh, .bh] ∧
  [Digit.d0, .d1, .d2, .d3, .d4, .d5, .d6, .d7].map Digit.rw = [.ax, .cx, .dx, .bx, .sp, .bp, .si, .di]

/-- R59, the source's worked example. -/
def Obligations.WorkedExampleBytes : Prop :=
  decode .opcodeByte [0x80, 0x6F, 0x11, 0x64] = .ok (.subEbIb (.sumD8 .bx 17) 100, []) ∧
  encode (.subEbIb (.sumD8 .bx 17) 100) = [0x80, 0x6F, 0x11, 0x64] ∧
  eabMod 0x6F = 1 ∧ eabColumn 0x6F = .d5 ∧ eabRm 0x6F = .d7 ∧ (Instr.subEbIb (.sumD8 .bx 17) 100).byteLength = 4

/-- Opcode bytes PRESUMED (GK9, log entry 26), override bytes PRESUMED (GK8, log entry 21). -/
def Obligations.SampleWordsDecode : Prop :=
  decode .opcodeByte [0x01, 0xEE] = .ok (.addEwRw (.reg .d6) .bp, []) ∧
  decode .opcodeByte [0x8B, 0x40, 0x05] = .ok (.movRwEw .ax (.sumD8 .bxSi 5), []) ∧
  decode .opcodeByte [0x89, 0x36, 0x00, 0x01] = .ok (.movEwRw (.var 0x0100) .si, []) ∧
  decode .opcodeByte [0x8A, 0x1F] = .ok (.movRbEb .bl (.sum .bx), []) ∧
  decode .opcodeByte [0xC7, 0x06, 0x00, 0x20, 0x00, 0x00] = .ok (.movEwIw (.var 0x2000) 0, []) ∧
  decode .opcodeByte [0xFE, 0x06, 0x00, 0x20] = .ok (.incEb (.var 0x2000), []) ∧
  decode .opcodeByte [0xFF, 0x46, 0x04] = .ok (.incEw (.sumD8 .bp 4), []) ∧
  decode .opcodeByte [0x26] = .ok (.segOverrideES, []) ∧ decode .opcodeByte [0x2E] = .ok (.segOverrideCS, []) ∧
  decode .opcodeByte [0x36] = .ok (.segOverrideSS, []) ∧ decode .opcodeByte [0x3E] = .ok (.segOverrideDS, [])

/-- The spec's decision D16 (log entry 26). -/
def Obligations.OpcodeWithoutRowRefused : Prop :=
  (∀ (b : Byte) (rest : List Byte), b ∉ [0x80, 0x01, 0x8B, 0x89, 0x8A, 0xC7, 0xFE, 0xFF] → b ∉ [0x26, 0x2E, 0x36, 0x3E] →
    decode .opcodeByte (b :: rest) = .error .opcodeNotInTable) ∧
  (∀ (eab : Byte) (rest : List Byte), eabColumn eab ≠ .d5 → decode .opcodeByte (0x80 :: eab :: rest) = .error .opcodeNotInTable) ∧
  (∀ (op eab : Byte) (rest : List Byte), op ∈ [0xC7, 0xFE, 0xFF] → eabColumn eab ≠ .d0 →
    decode .opcodeByte (op :: eab :: rest) = .error .opcodeNotInTable)

/-- R7, R8, R12; the refusal is decision D22 (log entry 30). -/
def Obligations.RegisterNumbers : Prop :=
  [Digit.d0, .d1, .d2, .d3, .d4, .d5, .d6, .d7].map Digit.rw = [.ax, .cx, .dx, .bx, .sp, .bp, .si, .di] ∧
  [Digit.d0, .d1, .d2, .d3, .d4, .d5, .d6, .d7].map Digit.rb = [.al, .cl, .dl, .bl, .ah, .ch, .dh, .bh] ∧
  (∀ d : Digit, d.rw.digit = d ∧ d.rb.digit = d) ∧
  segRegOf .d0 = .ok .es ∧ segRegOf .d1 = .ok .cs ∧ segRegOf .d2 = .ok .ss ∧ segRegOf .d3 = .ok .ds ∧
  ∀ d : Digit, 4 ≤ d.num → segRegOf d = .error .segColumn4To7

/-- R101, with R49 and R50. The modulus is decision D3 (log entry 17). -/
def Obligations.AssemblerFormNamesTheOperand : Prop :=
  ∀ (regs : Option RegSum) (k : Int) (s : State),
    (assembleEa regs k).wf = true ∧
    (∀ r, regs = some r → decodeEA (assembleEa regs k) s = .mem (s.sumValue r + BitVec.ofInt 16 k) (sumSeg r)) ∧
    (regs = none → decodeEA (assembleEa regs k) s = .mem (BitVec.ofInt 16 k) .ds) ∧
    (∀ r, regs = some r → k = 0 → (assembleEa regs k).dispLen = if r = .bp then 1 else 0) ∧
    (∀ r, regs = some r → k ≠ 0 → -128 ≤ k → k ≤ 127 → (assembleEa regs k).dispLen = 1)

/-- R50. -/
def Obligations.BpWithoutDisplacement : Prop :=
  assembleEa (some .bp) 0 = .sumD8 .bp 0 ∧ (Ea.sum .bp).wf = false ∧
  (∀ (c : Digit), encodeEa c (.sumD8 .bp 0) = [BitVec.ofNat 8 (0x46 + 8 * c.num), 0x00]) ∧
  (∀ (c : Digit) (d : Word), encodeEa c (.var d) = [BitVec.ofNat 8 (0x06 + 8 * c.num), loByte d, hiByte d]) ∧
  (∀ (c : Digit) (n0 n1 : Byte) (rest : List Byte),
    decode .eaByte (BitVec.ofNat 8 (0x06 + 8 * c.num) :: n0 :: n1 :: rest) = .ok (.eaVar c (wordOf n0 n1), rest) ∧
    decode .eaByte (BitVec.ofNat 8 (0x46 + 8 * c.num) :: 0 :: rest) = .ok (.eaBpD8 c 0, rest)) ∧
  ∀ s : State, decodeEA (.sumD8 .bp 0) s = .mem s.bp .ss

/-- R61. The sums' modulus is decision D3 (log entry 17); that an operand-form row is run by itself is the model's (log entry 1). -/
def Obligations.DecodeEaMeetsPseudocode : Prop :=
  ∀ (s : State) (eab n0 n1 : Byte) (rest : List Byte), ∃ (ea : Ea) (rest' : List Byte),
    decode .eaByte (eab :: n0 :: n1 :: rest) = .ok (Instr.ofEa (eabColumn eab) ea, rest') ∧
    decodeEA ea s = pseudoDecodeEA s eab n0 n1 ∧
    exec (Instr.ofEa (eabColumn eab) ea) s = .next { s with operand := some (pseudoDecodeEA s eab n0 n1) }

/-- R61 against R62 to R93; keeping the operand in the state is the model's (log entry 1). -/
def Obligations.FormRowsAgreeWithDecodeEA : Prop :=
  ∀ (c : Digit) (ea : Ea) (s : State), ea.wf = true → exec (Instr.ofEa c ea) s = .next { s with operand := some (decodeEA ea s) }

/-- R62 to R69. The modulus is decision D3 (log entry 17); keeping the operand is the model's (log entry 1). -/
def Obligations.FormsWithoutDisplacement : Prop :=
  ∀ (c : Digit) (d : Word) (s : State),
    exec (.eaBxSi c) s = .next { s with operand := some (.mem (s.bx + s.si) .ds) } ∧
    exec (.eaBxDi c) s = .next { s with operand := some (.mem (s.bx + s.di) .ds) } ∧
    exec (.eaBpSi c) s = .next { s with operand := some (.mem (s.bp + s.si) .ss) } ∧
    exec (.eaBpDi c) s = .next { s with operand := some (.mem (s.bp + s.di) .ss) } ∧
    exec (.eaSi c) s = .next { s with operand := some (.mem s.si .ds) } ∧
    exec (.eaDi c) s = .next { s with operand := some (.mem s.di .ds) } ∧
    exec (.eaVar c d) s = .next { s with operand := some (.mem d .ds) } ∧
    exec (.eaBx c) s = .next { s with operand := some (.mem s.bx .ds) }

/-- R70 to R77. The modulus is decision D3 (log entry 17); keeping the operand is the model's (log entry 1). -/
def Obligations.FormsWithByteDisplacement : Prop :=
  ∀ (c : Digit) (d : Byte) (s : State),
    exec (.eaBxSiD8 c d) s = .next { s with operand := some (.mem (s.bx + s.si + d.signExtend 16) .ds) } ∧
    exec (.eaBxDiD8 c d) s = .next { s with operand := some (.mem (s.bx + s.di + d.signExtend 16) .ds) } ∧
    exec (.eaBpSiD8 c d) s = .next { s with operand := some (.mem (s.bp + s.si + d.signExtend 16) .ss) } ∧
    exec (.eaBpDiD8 c d) s = .next { s with operand := some (.mem (s.bp + s.di + d.signExtend 16) .ss) } ∧
    exec (.eaSiD8 c d) s = .next { s with operand := some (.mem (s.si + d.signExtend 16) .ds) } ∧
    exec (.eaDiD8 c d) s = .next { s with operand := some (.mem (s.di + d.signExtend 16) .ds) } ∧
    exec (.eaBpD8 c d) s = .next { s with operand := some (.mem (s.bp + d.signExtend 16) .ss) } ∧
    exec (.eaBxD8 c d) s = .next { s with operand := some (.mem (s.bx + d.signExtend 16) .ds) }

/-- R78 to R85. The modulus is decision D3 (log entry 17); keeping the operand is the model's (log entry 1). -/
def Obligations.FormsWithWordDisplacement : Prop :=
  ∀ (c : Digit) (d : Word) (s : State),
    exec (.eaBxSiD16 c d) s = .next { s with operand := some (.mem (s.bx + s.si + d) .ds) } ∧
    exec (.eaBxDiD16 c d) s = .next { s with operand := some (.mem (s.bx + s.di + d) .ds) } ∧
    exec (.eaBpSiD16 c d) s = .next { s with operand := some (.mem (s.bp + s.si + d) .ss) } ∧
    exec (.eaBpDiD16 c d) s = .next { s with operand := some (.mem (s.bp + s.di + d) .ss) } ∧
    exec (.eaSiD16 c d) s = .next { s with operand := some (.mem (s.si + d) .ds) } ∧
    exec (.eaDiD16 c d) s = .next { s with operand := some (.mem (s.di + d) .ds) } ∧
    exec (.eaBpD16 c d) s = .next { s with operand := some (.mem (s.bp + d) .ss) } ∧
    exec (.eaBxD16 c d) s = .next { s with operand := some (.mem (s.bx + d) .ds) }

/-- R86 to R93, R97. AH as bits 15:8 of AX is decision D2 (log entry 14); keeping the operand is the model's (log entry 1). -/
def Obligations.RegisterForms : Prop :=
  ∀ (c : Digit) (s : State),
    exec (.eaAxAl c) s = .next { s with operand := some (.reg .d0) } ∧
    exec (.eaCxCl c) s = .next { s with operand := some (.reg .d1) } ∧
    exec (.eaDxDl c) s = .next { s with operand := some (.reg .d2) } ∧
    exec (.eaBxBl c) s = .next { s with operand := some (.reg .d3) } ∧
    exec (.eaSpAh c) s = .next { s with operand := some (.reg .d4) } ∧
    exec (.eaBpCh c) s = .next { s with operand := some (.reg .d5) } ∧
    exec (.eaSiDh c) s = .next { s with operand := some (.reg .d6) } ∧
    exec (.eaDiBh c) s = .next { s with operand := some (.reg .d7) } ∧
    s.readEA16 (.reg .d4) = s.sp ∧ s.readEA8 (.reg .d4) = hiByte s.ax ∧ ∀ i, s.readEA8 (.reg i) = s.readRb i.rb ∧ s.readEA16 (.reg i) = s.readRw i.rw

/-- R94, said of an operand-form row run by itself; that the row is run so and its operand kept in the state is the model's (log entries 1, 2). -/
def Obligations.DefaultSegmentRegister : Prop :=
  ∀ (s : State) (eab n0 n1 : Byte) (rest : List Byte) (i : Instr) (rest' : List Byte),
    decode .eaByte (eab :: n0 :: n1 :: rest) = .ok (i, rest') →
    ∃ op, exec i s = .next { s with operand := some op } ∧
      (eab.toNat / 64 = 3 → ∃ r, op = .reg r) ∧
      (eab.toNat / 64 ≠ 3 → ∃ off, op = .mem off
        (if eab.toNat % 8 = 2 ∨ eab.toNat % 8 = 3 ∨ (eab.toNat % 8 = 6 ∧ eab.toNat / 64 ≠ 0) then .ss else .ds))

/-- R95; that nothing else is changed is decision D10 (log entry 21). -/
def Obligations.SegmentOverrideReplacesDefault : Prop :=
  ∀ (s : State) (sr d : SegReg) (off : Word) (ea : Ea) (i : Digit),
    State.readEA8 { s with ovr := some sr } (.mem off d) = s.segRead8 (s.readSeg sr) off ∧
    State.readEA16 { s with ovr := some sr } (.mem off d) = s.segRead16 (s.readSeg sr) off ∧
    State.readEA8 { s with ovr := none } (.mem off d) = s.segRead8 (s.readSeg d) off ∧
    State.readEA16 { s with ovr := none } (.mem off d) = s.segRead16 (s.readSeg d) off ∧
    State.readEA8 { s with ovr := some sr } (.reg i) = s.readEA8 (.reg i) ∧
    State.readEA16 { s with ovr := some sr } (.reg i) = s.readEA16 (.reg i) ∧
    decodeEA ea { s with ovr := some sr } = decodeEA ea s

/-- R102, with decision D23 (log entry 31). -/
def Obligations.SeveralEncodingsOneOperand : Prop :=
  ∀ (r : RegSum) (d : Byte) (s : State),
    decodeEA (.sumD16 r (d.signExtend 16)) s = decodeEA (.sumD8 r d) s ∧
    decodeEA (.sumD8 r 0) s = decodeEA (.sum r) s ∧ decodeEA (.sumD16 r 0) s = decodeEA (.sum r) s ∧
    decodeEA (.sumD8 .bp 0) s = .mem s.bp .ss ∧ decodeEA (.var s.bp) s = .mem s.bp .ds

/-- R10: "AX, CX, DX and SP cannot appear in a memory operand". -/
def Obligations.AddressRegisters : Prop :=
  ∀ (ea : Ea) (s t : State), s.bx = t.bx → s.bp = t.bp → s.si = t.si → s.di = t.di → decodeEA ea s = decodeEA ea t

/-- R45; in the last clause the addition is modulo 2^16, the spec's decision D3 (PRESUMED, log entry 17), and the segment is R94's. -/
def Obligations.DisplacementByteIsSigned : Prop :=
  ∀ (b : Byte) (r : RegSum) (s : State),
    ((b.signExtend 16).toNat = if b.toNat < 0x80 then b.toNat else 0xFF00 + b.toNat) ∧
    (b.signExtend 16).toInt = b.toInt ∧ -128 ≤ b.toInt ∧ b.toInt ≤ 127 ∧
    decodeEA (.sumD8 r b) s = .mem (s.sumValue r + b.signExtend 16) (sumSeg r)

/-- R9, the spec's decision D2 from general knowledge (log entry 14). -/
def Obligations.ByteRegistersAreHalves : Prop :=
  ∀ (s : State) (r : Reg8) (v : Byte),
    s.readRb .al = loByte s.ax ∧ s.readRb .cl = loByte s.cx ∧ s.readRb .dl = loByte s.dx ∧ s.readRb .bl = loByte s.bx ∧
    s.readRb .ah = hiByte s.ax ∧ s.readRb .ch = hiByte s.cx ∧ s.readRb .dh = hiByte s.dx ∧ s.readRb .bh = hiByte s.bx ∧
    (s.writeRb r v).readRb r = v ∧ (∀ q, q ≠ r → (s.writeRb r v).readRb q = s.readRb q) ∧
    s.RegsKeptBut (s.writeRb r v) (regWhole r)

/-- R23, R25; the reduction modulo 2^20 is decision D4 (log entry 16). -/
def Obligations.LocationOfSegmentAndOffset : Prop :=
  (∀ seg off : Word, (phys seg off).toNat = (seg.toNat * 16 + off.toNat) % 2 ^ 20) ∧
  (∀ seg off : Word, 16 ≤ off.toNat → phys (seg + 1) (off - 16) = phys seg off) ∧
  (∀ seg o1 o2 : Word, phys seg o1 = phys seg o2 → o1 = o2) ∧
  phys 0xFFFF 0x0010 = 0 ∧ phys 0xFFFF 0xFFFF = 0x0FFEF

/-- R26, R28; the wrap at offset 0xFFFF is decision D5 (log entry 17). -/
def Obligations.WordByteOrder : Prop :=
  ∀ (s : State) (seg off v : Word), s.mem.wf = true →
    (s.segWrite16 seg off v).segRead8 seg off = loByte v ∧ (s.segWrite16 seg off v).segRead8 seg (off + 1) = hiByte v ∧
    (s.segWrite16 seg off v).segRead16 seg off = v ∧ s.MemKeptBut16 (s.segWrite16 seg off v) seg off

/-- R30, R97, R98; decision D21 from general knowledge (log entry 30), the wrap at offset 0xFFFF decision D5 (log entry 17), the refusal decision D14 (log entry 12); no row of the table has an ed operand. -/
def Obligations.DoublewordOperand : Prop :=
  (∀ (s : State) (seg off : Word) (k : Nat), k < 4 →
    (s.segRead32 seg off).extractLsb' (8 * k) 8 = s.segRead8 seg (off + BitVec.ofNat 16 k)) ∧
  (∀ (s : State) (seg off : Word) (v : BitVec 32), s.mem.wf = true →
    (s.segWrite32 seg off v).segRead32 seg off = v ∧
    ∀ k : Nat, k < 4 → (s.segWrite32 seg off v).segRead8 seg (off + BitVec.ofNat 16 k) = v.extractLsb' (8 * k) 8) ∧
  (∀ (s : State) (seg off : Word) (v : BitVec 32),
    s.segWrite32 seg off v = { s with mem := (s.segWrite32 seg off v).mem } ∧
    ∀ a : Loc, (∀ k : Nat, k < 4 → a ≠ phys seg (off + BitVec.ofNat 16 k)) → (s.segWrite32 seg off v).readByte a = s.readByte a) ∧
  (∀ (s : State) (off : Word) (d : SegReg) (v : BitVec 32),
    s.readEA32 (.mem off d) = .ok (s.segRead32 (s.eaSeg d) off) ∧
    (s.Storable 4 (.mem off d) → s.writeEA32 (.mem off d) v = .next (s.segWrite32 (s.eaSeg d) off v)) ∧
    ((∃ k : Nat, k < 4 ∧ s.inProgram (phys (s.eaSeg d) (off + BitVec.ofNat 16 k)) = true) →
      s.writeEA32 (.mem off d) v = .refused .selfModifyingCode)) ∧
  ∀ (s : State) (i : Digit) (v : BitVec 32),
    s.readEA32 (.reg i) = .error .edRegisterForm ∧ s.writeEA32 (.reg i) v = .refused .edRegisterForm

/-- R20 leaves every element unspecified but the pending override; the other values are the model's (log entries 7 to 10). -/
def Obligations.ResetState : Prop :=
  State.reset.ovr = none ∧ State.reset.AtBoundary ∧
  State.reset.cs = 0xFFFF ∧ State.reset.ip = 0 ∧ State.reset.ds = 0 ∧ State.reset.es = 0 ∧ State.reset.ss = 0 ∧
  State.reset.flags = 0 ∧ (∀ r, State.reset.readRw r = 0) ∧ State.reset.mem = [] ∧ State.reset.progLen = 0

/-- R103; the modulus is decision D9 (log entry 20), FLAGS decision D8 (log entry 5). -/
def Obligations.SubRegisterForm : Prop :=
  ∀ (i : Digit) (ib : Byte) (s : State), ∃ t, exec (.subEbIb (.reg i) ib) s = .next t ∧
    t.readRb i.rb = s.readRb i.rb - ib ∧ (∀ q, q ≠ i.rb → t.readRb q = s.readRb q) ∧
    s.RegsKeptBut t (regWhole i.rb) ∧ s.MemKept t ∧ s.FlagsFree t ∧ s.Ends t 3

/-- R103; D9 (log entry 20), D8 (log entry 5), D14 (log entry 12). -/
def Obligations.SubMemoryForm : Prop :=
  ∀ (ea : Ea) (ib : Byte) (s : State) (off : Word) (d : SegReg), s.mem.wf = true → decodeEA ea s = .mem off d →
    s.Storable 1 (.mem off d) → ∃ t, exec (.subEbIb ea ib) s = .next t ∧
      t.segRead8 (s.eaSeg d) off = s.segRead8 (s.eaSeg d) off - ib ∧ s.MemKeptBut8 t (s.eaSeg d) off ∧ s.RegsKept t ∧
      s.FlagsFree t ∧ s.Ends t (3 + ea.dispLen)

/-- R104; D9 (log entry 20), D8 (log entry 5). -/
def Obligations.AddRegisterForm : Prop :=
  ∀ (i : Digit) (r : Reg16) (s : State), ∃ t, exec (.addEwRw (.reg i) r) s = .next t ∧
    t.readRw i.rw = s.readRw i.rw + s.readRw r ∧ s.RegsKeptBut t i.rw ∧ s.MemKept t ∧ s.FlagsFree t ∧ s.Ends t 2

/-- R104; D9 (log entry 20), D8 (log entry 5), D5 (log entry 17), D14 (log entry 12). -/
def Obligations.AddMemoryForm : Prop :=
  ∀ (ea : Ea) (r : Reg16) (s : State) (off : Word) (d : SegReg), s.mem.wf = true → decodeEA ea s = .mem off d →
    s.Storable 2 (.mem off d) → ∃ t, exec (.addEwRw ea r) s = .next t ∧
      t.segRead16 (s.eaSeg d) off = s.segRead16 (s.eaSeg d) off + s.readRw r ∧ s.MemKeptBut16 t (s.eaSeg d) off ∧
      s.RegsKept t ∧ s.FlagsFree t ∧ s.Ends t (2 + ea.dispLen)

/-- R105, R99 (decision D24, log entry 31); FLAGS unchanged is decision D8. -/
def Obligations.MovLoadsWordRegister : Prop :=
  ∀ (r : Reg16) (ea : Ea) (s : State), ∃ t, exec (.movRwEw r ea) s = .next t ∧
    (∀ i, ea = .reg i → t.readRw r = s.readRw i.rw) ∧
    (∀ off d, decodeEA ea s = .mem off d → t.readRw r = s.segRead16 (s.eaSeg d) off) ∧
    s.RegsKeptBut t r ∧ s.MemKept t ∧ s.FlagsKept t ∧ s.Ends t (2 + ea.dispLen)

/-- R107, R99 (D24, log entry 31), R9 (D2, log entry 14). -/
def Obligations.MovLoadsByteRegister : Prop :=
  ∀ (r : Reg8) (ea : Ea) (s : State), ∃ t, exec (.movRbEb r ea) s = .next t ∧
    (∀ i, ea = .reg i → t.readRb r = s.readRb i.rb) ∧
    (∀ off d, decodeEA ea s = .mem off d → t.readRb r = s.segRead8 (s.eaSeg d) off) ∧
    (∀ q, q ≠ r → t.readRb q = s.readRb q) ∧ s.RegsKeptBut t (regWhole r) ∧ s.MemKept t ∧ s.FlagsKept t ∧
    s.Ends t (2 + ea.dispLen)

/-- R106, R108. -/
def Obligations.MovToRegisterOperand : Prop :=
  ∀ (i : Digit) (r : Reg16) (iw : Word) (s : State),
    (∃ t, exec (.movEwRw (.reg i) r) s = .next t ∧ t.readRw i.rw = s.readRw r ∧ s.RegsKeptBut t i.rw ∧ s.MemKept t ∧
      s.FlagsKept t ∧ s.Ends t 2) ∧
    ∃ t, exec (.movEwIw (.reg i) iw) s = .next t ∧ t.readRw i.rw = iw ∧ s.RegsKeptBut t i.rw ∧ s.MemKept t ∧
      s.FlagsKept t ∧ s.Ends t 4

/-- R106, R108, R26; D5 (log entry 17), D14 (log entry 12). -/
def Obligations.MovStoresWord : Prop :=
  ∀ (ea : Ea) (r : Reg16) (iw : Word) (s : State) (off : Word) (d : SegReg), s.mem.wf = true → decodeEA ea s = .mem off d →
    s.Storable 2 (.mem off d) →
    (∃ t, exec (.movEwRw ea r) s = .next t ∧ t.segRead16 (s.eaSeg d) off = s.readRw r ∧
      t.segRead8 (s.eaSeg d) off = loByte (s.readRw r) ∧ s.MemKeptBut16 t (s.eaSeg d) off ∧ s.RegsKept t ∧ s.FlagsKept t ∧
      s.Ends t (2 + ea.dispLen)) ∧
    ∃ t, exec (.movEwIw ea iw) s = .next t ∧ t.segRead16 (s.eaSeg d) off = iw ∧ t.segRead8 (s.eaSeg d) off = loByte iw ∧
      s.MemKeptBut16 t (s.eaSeg d) off ∧ s.RegsKept t ∧ s.FlagsKept t ∧ s.Ends t (4 + ea.dispLen)

/-- R109, R110; D9 (log entry 20), D8 (log entry 5). -/
def Obligations.IncRegisterForm : Prop :=
  ∀ (i : Digit) (s : State),
    (∃ t, exec (.incEb (.reg i)) s = .next t ∧ t.readRb i.rb = s.readRb i.rb + 1 ∧ (∀ q, q ≠ i.rb → t.readRb q = s.readRb q) ∧
      s.RegsKeptBut t (regWhole i.rb) ∧ s.MemKept t ∧ s.FlagsFree t ∧ s.Ends t 2) ∧
    ∃ t, exec (.incEw (.reg i)) s = .next t ∧ t.readRw i.rw = s.readRw i.rw + 1 ∧ s.RegsKeptBut t i.rw ∧ s.MemKept t ∧
      s.FlagsFree t ∧ s.Ends t 2

/-- R109, R110; D9 (log entry 20), D8 (log entry 5), D5 (log entry 17), D14 (log entry 12). -/
def Obligations.IncMemoryForm : Prop :=
  ∀ (ea : Ea) (s : State) (off : Word) (d : SegReg), s.mem.wf = true → decodeEA ea s = .mem off d →
    (s.Storable 1 (.mem off d) → ∃ t, exec (.incEb ea) s = .next t ∧
      t.segRead8 (s.eaSeg d) off = s.segRead8 (s.eaSeg d) off + 1 ∧ s.MemKeptBut8 t (s.eaSeg d) off ∧ s.RegsKept t ∧
      s.FlagsFree t ∧ s.Ends t (2 + ea.dispLen)) ∧
    (s.Storable 2 (.mem off d) → ∃ t, exec (.incEw ea) s = .next t ∧
      t.segRead16 (s.eaSeg d) off = s.segRead16 (s.eaSeg d) off + 1 ∧ s.MemKeptBut16 t (s.eaSeg d) off ∧ s.RegsKept t ∧
      s.FlagsFree t ∧ s.Ends t (2 + ea.dispLen))

/-- R54, R55 (D11, log entry 22). The meaning of the row, which a step goes on from (R138) unless the row was asked for by itself; that request, spent here, is the model's (log entry 3). -/
def Obligations.OverrideBytesComplete : Prop :=
  ∀ s : State,
    (s.ovr = none →
      exec .segOverrideES s = .next { s with ovr := some .es, prefixAlone := false } ∧
      exec .segOverrideCS s = .next { s with ovr := some .cs, prefixAlone := false } ∧
      exec .segOverrideSS s = .next { s with ovr := some .ss, prefixAlone := false } ∧
      exec .segOverrideDS s = .next { s with ovr := some .ds, prefixAlone := false }) ∧
    (∀ sr, s.ovr = some sr →
      exec .segOverrideES s = .refused .multiplePrefixes ∧ exec .segOverrideCS s = .refused .multiplePrefixes ∧
      exec .segOverrideSS s = .refused .multiplePrefixes ∧ exec .segOverrideDS s = .refused .multiplePrefixes)

/-- R37, decision D14 (log entry 12). -/
def Obligations.StoresIntoTheProgramRefused : Prop :=
  ∀ (ea : Ea) (s : State) (off : Word) (d : SegReg) (ib : Byte) (iw : Word) (r : Reg16), decodeEA ea s = .mem off d →
    (s.inProgram (phys (s.eaSeg d) off) = true →
      exec (.subEbIb ea ib) s = .refused .selfModifyingCode ∧ exec (.incEb ea) s = .refused .selfModifyingCode) ∧
    (s.inProgram (phys (s.eaSeg d) off) = true ∨ s.inProgram (phys (s.eaSeg d) (off + 1)) = true →
      exec (.addEwRw ea r) s = .refused .selfModifyingCode ∧ exec (.movEwRw ea r) s = .refused .selfModifyingCode ∧
      exec (.movEwIw ea iw) s = .refused .selfModifyingCode ∧ exec (.incEw ea) s = .refused .selfModifyingCode)

/-- R138, decision D26 (log entry 10). -/
def Obligations.ProgramLocations : Prop :=
  ∀ (s : State) (a : Loc), s.inProgram a = true ↔ ∃ k, k < s.progLen ∧ a = phys s.cs (s.progBase + BitVec.ofNat 16 k)

/-- R14, R138, and R54, R55 for the override byte. exec of an instruction row itself advances ip by the length (R48). That an operand-form row (position eaByte) or an override byte asked for by itself is a step of its own is the model's (log entries 1, 2, 3), and so is the program window codeBytes reads (log entry 10); the refusal of a second prefix is decision D11 (log entry 22). -/
def Obligations.StepRunsDecodedInstruction : Prop :=
  ∀ (s : State) (i : Instr) (rest : List Byte), decode s.expects s.codeBytes = .ok (i, rest) →
    (i.isOverride = false ∨ s.prefixAlone = true → step s = exec i s) ∧
    (∀ (sr : SegReg) (j : Instr) (rest' : List Byte), i = prefixInstr sr → s.prefixAlone = false → s.ovr = none →
      decode .opcodeByte (State.codeBytes { s with ovr := some sr }) = .ok (j, rest') → step s = exec j { s with ovr := some sr }) ∧
    (i.isOverride = true → s.ovr.isSome = true → step s = .refused .multiplePrefixes)

/-- R14, R40, R48, R138 for an instruction row. That an operand-form row (position eaByte) or an override byte asked for by itself is a step of its own is the model's (log entries 1, 2, 3), the program window log entry 10. An override byte with its instruction: PrefixedInstructionRuns. -/
def Obligations.StepRunsEncodedInstruction : Prop :=
  ∀ (s : State) (i : Instr), i.wf = true → s.expects = i.position → i.isOverride = false ∨ s.prefixAlone = true →
    s.prefixLen + (encode i).length ≤ s.progLeft →
    (∀ k b, (encode i)[k]? = some b → s.codeByte (s.prefixLen + k) = b) → step s = exec i s

/-- R54, R14, R48, R138: one instruction, one step. The second clause, where the override byte is asked for by itself, is the model's (log entry 3). -/
def Obligations.PrefixedInstructionRuns : Prop :=
  ∀ (s : State) (sr : SegReg) (i : Instr), s.AtBoundary → i.wf = true → i.position = .opcodeByte →
    1 + (encode i).length ≤ s.progLeft → s.codeByte 0 = Config.overrideBytes sr →
    (∀ k b, (encode i)[k]? = some b → s.codeByte (1 + k) = b) →
    (s.prefixAlone = false → step s = exec i { s with ovr := some sr }) ∧
    (s.prefixAlone = true → step s = .next { s with ovr := some sr, prefixAlone := false } ∧
      step { s with ovr := some sr, prefixAlone := false } = exec i { s with ovr := some sr, prefixAlone := false })

/-- R53, R119, R122 (D16, log entry 26), R121, R138 (D26; the program window is log entry 10). Which refusal is found first is log entry 32. -/
def Obligations.UnknownOpcodeStopsTheStep : Prop :=
  refusalOf .opcodeNotInTable = .opcodeNotInTable ∧ refusalOf .truncated = .programEndsInsideInstruction ∧
  ∀ s : State,
    (∀ e, s.runEnded = false → decode s.expects s.codeBytes = .error e → step s = .refused (refusalOf e)) ∧
    (∀ (sr : SegReg) (rest : List Byte) (e : DecodeError), s.ovr = none → s.prefixAlone = false →
      decode s.expects s.codeBytes = .ok (prefixInstr sr, rest) →
      decode .opcodeByte (State.codeBytes { s with ovr := some sr }) = .error e → step s = .refused (refusalOf e)) ∧
    (s.expects = .opcodeByte → s.prefixLen < s.progLeft →
      (s.codeByte s.prefixLen ∉ [0x80, 0x01, 0x8B, 0x89, 0x8A, 0xC7, 0xFE, 0xFF] →
        s.codeByte s.prefixLen ∉ [0x26, 0x2E, 0x36, 0x3E] → step s = .refused .opcodeNotInTable) ∧
      (s.codeByte s.prefixLen ∈ [0x80, 0x01, 0x8B, 0x89, 0x8A, 0xC7, 0xFE, 0xFF] → s.progLeft = s.prefixLen + 1 →
        step s = .refused .programEndsInsideInstruction)) ∧
    (s.expects = .opcodeByte → s.prefixLen + 1 < s.progLeft →
      (s.codeByte s.prefixLen = 0x80 → eabColumn (s.codeByte (s.prefixLen + 1)) ≠ .d5 → step s = .refused .opcodeNotInTable) ∧
      (s.codeByte s.prefixLen ∈ [0xC7, 0xFE, 0xFF] → eabColumn (s.codeByte (s.prefixLen + 1)) ≠ .d0 →
        step s = .refused .opcodeNotInTable))

/-- R138, decision D26 (log entry 11). -/
def Obligations.RunEndsAtProgramEnd : Prop :=
  ∀ s : State, step s = .fault .runEnded ↔ s.progLeft = 0 ∧ s.ovr = none ∧ s.expects = .opcodeByte

/-- The invariant is Sys2Proof.Machine.State.Inv. -/
def Obligations.InvariantAtReset : Prop :=
  State.reset.Inv

/-- R14, R19, R27, R138. -/
def Obligations.StepKeepsInvariant : Prop :=
  ∀ s t : State, s.Inv → step s = .next t → t.Inv

/-- R37 (D14, log entry 12), R138. -/
def Obligations.StepKeepsTheProgram : Prop :=
  ∀ s t : State, step s = .next t → t.cs = s.cs ∧ t.progBase = s.progBase ∧ t.progLen = s.progLen ∧
    ∀ k, k < s.progLen → t.programByte k = s.programByte k

/-- R134: "The source gives no instruction that loads a segment register". -/
def Obligations.SegmentRegistersKept : Prop :=
  ∀ (i : Instr) (s t : State), exec i s = .next t → ∀ q, t.readSeg q = s.readSeg q

/-- R14, R48, R118; D7 (log entry 19). The second clause, that an operand-form row or an override byte has a meaning of its own, which leaves ip, is the model's (log entries 1, 3); the program window is log entry 10. -/
def Obligations.InstructionsFallThrough : Prop :=
  ∀ (i : Instr) (s t : State), exec i s = .next t →
    (i.position = .opcodeByte → 2 ≤ i.byteLength → t.ip = s.ip + BitVec.ofNat 16 (s.prefixLen + i.byteLength) ∧
      t.progDone = s.progDone + (s.prefixLen + i.byteLength) ∧ t.ovr = none ∧ t.operand = none) ∧
    (i.position = .eaByte ∨ i.byteLength = 1 → t.ip = s.ip ∧ t.progDone = s.progDone ∧ t.progLeft = s.progLeft)

/-- R15, decision D8 (log entry 5). -/
def Obligations.OnlyArithmeticChangesFlags : Prop :=
  ∀ (i : Instr) (s t : State), exec i s = .next t → (∀ ea ib, i ≠ .subEbIb ea ib) → (∀ ea r, i ≠ .addEwRw ea r) →
    (∀ ea, i ≠ .incEb ea) → (∀ ea, i ≠ .incEw ea) → s.FlagsKept t

/-- R15: "No rule of this spec reads it". -/
def Obligations.FlagsAreNeverRead : Prop :=
  ∀ (s : State) (f : Word), withoutFlags (step { s with flags := f }) = withoutFlags (step s)

/-- R21: "no matter which one is used to address memory, you'll still get the same 64K". -/
def Obligations.EqualSegmentsMakeOverridesIdle : Prop :=
  ∀ (i : Instr) (s : State) (a b : SegReg), s.cs = s.ds → s.ds = s.es → s.es = s.ss → i.position = .opcodeByte →
    exec i { s with ovr := some a } = exec i { s with ovr := some b }

/-- R118, R138. That an override byte may be a step of its own, which the measure allows for, and the program as bytes left are the model's (log entries 3, 10). -/
def Obligations.EveryStepUsesUpWork : Prop :=
  ∀ s t : State, s.expects = .opcodeByte → step s = .next t → t.expects = .opcodeByte ∧ t.work < s.work

/-- R118, R138 ("termination needs no fairness"). The bound allows for an override byte asked for by itself (log entry 3); the program window is log entry 10, and that the end is a fault is log entry 11. RunOfKInstructionsTakesKSteps has R138's own count. -/
def Obligations.EveryRunEnds : Prop :=
  ∀ s : State, s.expects = .opcodeByte → ∀ t : State,
    Host.Core.run Sys2Proof.core (s.work + 1) s ≠ Host.Outcome.next t

/-- R138, decision D26 (log entry 10). -/
def Obligations.LoadedProgramStandsAtIp : Prop :=
  ∀ (s : State) (bytes : List Byte), s.mem.wf = true → bytes.length ≤ 65536 →
    (s.loadProgram bytes).progBase = s.ip ∧ (s.loadProgram bytes).progLen = bytes.length ∧ (s.loadProgram bytes).ip = s.ip ∧
    (s.loadProgram bytes).mem.wf = true ∧ s.RegsKept (s.loadProgram bytes) ∧ (s.loadProgram bytes).flags = s.flags ∧
    ∀ k b, bytes[k]? = some b → (s.loadProgram bytes).programByte k = b

/-- GK7 (log entry 6). -/
def Obligations.FlagsFunctionKeepsOtherBits : Prop :=
  ∀ (old : Word) (a b : Byte) (c d : Word),
    flagsAfterSub old a b &&& ~~~flagsMask = old &&& ~~~flagsMask ∧ flagsAfterAdd old c d &&& ~~~flagsMask = old &&& ~~~flagsMask ∧
    flagsAfterInc old a &&& ~~~flagsMask = old &&& ~~~flagsMask ∧ flagsAfterInc old c &&& ~~~flagsMask = old &&& ~~~flagsMask ∧
    flagsAfterInc old a &&& 0x0001 = old &&& 0x0001 ∧ flagsAfterInc old c &&& 0x0001 = old &&& 0x0001 ∧
    (flagsAfterSub old c d &&& 0x0001 = 0x0001 ↔ c.toNat < d.toNat) ∧ (flagsAfterSub old c d &&& 0x0040 = 0x0040 ↔ c = d)

/-- R12, and the primitives s[i] and s[i] <- v of R6; the width is decision D1 (log entry 15). No meaning calls the write (log entry 30). -/
def Obligations.SegmentRegisterFile : Prop :=
  ∀ (s : State) (r : SegReg) (v : Word),
    s.readSeg .es = s.es ∧ s.readSeg .cs = s.cs ∧ s.readSeg .ss = s.ss ∧ s.readSeg .ds = s.ds ∧
    (s.writeSeg r v).readSeg r = v ∧ (∀ q, q ≠ r → (s.writeSeg r v).readSeg q = s.readSeg q) ∧
    { s.writeSeg r v with es := s.es, cs := s.cs, ss := s.ss, ds := s.ds } = s

/-- R138, decision D26; the program window is log entry 10. -/
def Obligations.TruncatedInstructionStopsTheStep : Prop :=
  ∀ (s : State) (i : Instr) (n : Nat), IsInstruction i → n < (encode i).length → s.expects = .opcodeByte →
    (s.progLeft = s.prefixLen + n → 0 < s.progLeft →
      (∀ k b, k < n → (encode i)[k]? = some b → s.codeByte (s.prefixLen + k) = b) →
      step s = .refused .programEndsInsideInstruction) ∧
    (∀ sr : SegReg, s.ovr = none → s.prefixAlone = false → s.progLeft = 1 + n → s.codeByte 0 = Config.overrideBytes sr →
      (∀ k b, k < n → (encode i)[k]? = some b → s.codeByte (1 + k) = b) → step s = .refused .programEndsInsideInstruction)

/-- R138, decision D26, with D14 for the refusal (log entry 12). The program as bytes left is log entry 10, the end as a fault log entry 11. -/
def Obligations.RunOfKInstructionsTakesKSteps : Prop :=
  ∀ (s : State) (p : List (Option SegReg × Instr)), s.AtBoundary → s.prefixAlone = false → (∀ x ∈ p, IsInstruction x.2) →
    s.progLeft = (programBytes p).length → (∀ k b, (programBytes p)[k]? = some b → s.codeByte k = b) →
    ∀ n, n ≤ p.length →
      Host.Core.run Sys2Proof.core n s = Host.Outcome.refused Refusal.selfModifyingCode ∨
      ∃ t : State, Host.Core.run Sys2Proof.core n s = Host.Outcome.next t ∧ t.AtBoundary ∧
        t.ip = s.ip + BitVec.ofNat 16 (programBytes (p.take n)).length ∧ t.progLeft = (programBytes (p.drop n)).length ∧
        (n < p.length → t.runEnded = false) ∧ (n = p.length → step t = .fault .runEnded)
end

