-- ==== Sys2Proof/Laws/State.lean ====
section
/-! SUPPORT. What each update of the state does to each field, one lemma per field per update, so that no proof unfolds a record
update. -/

namespace Sys2Proof.Machine

/-- Under the policy the model has, FLAGS takes a free value (10_state.md R15). -/
theorem State.setFlags_eq (s : State) (x : Word) :
    s.setFlags x = { s with flags := Config.freeFlags s.freeCount, freeCount := s.freeCount + 1 } := rfl

/-! ## Writing a general register -/

@[simp] theorem State.readRw_writeRw_same (s : State) (r : Reg16) (v : Word) : (s.writeRw r v).readRw r = v := by
  cases r <;> rfl

theorem State.readRw_writeRw_other (s : State) {r q : Reg16} (v : Word) (h : q ≠ r) :
    (s.writeRw r v).readRw q = s.readRw q := by
  cases r <;> cases q <;> first | rfl | exact absurd rfl h

@[simp] theorem State.writeRw_es (s : State) (r : Reg16) (v : Word) : (s.writeRw r v).es = s.es := by cases r <;> rfl
@[simp] theorem State.writeRw_cs (s : State) (r : Reg16) (v : Word) : (s.writeRw r v).cs = s.cs := by cases r <;> rfl
@[simp] theorem State.writeRw_ss (s : State) (r : Reg16) (v : Word) : (s.writeRw r v).ss = s.ss := by cases r <;> rfl
@[simp] theorem State.writeRw_ds (s : State) (r : Reg16) (v : Word) : (s.writeRw r v).ds = s.ds := by cases r <;> rfl
@[simp] theorem State.writeRw_ip (s : State) (r : Reg16) (v : Word) : (s.writeRw r v).ip = s.ip := by cases r <;> rfl
@[simp] theorem State.writeRw_flags (s : State) (r : Reg16) (v : Word) : (s.writeRw r v).flags = s.flags := by cases r <;> rfl
@[simp] theorem State.writeRw_mem (s : State) (r : Reg16) (v : Word) : (s.writeRw r v).mem = s.mem := by cases r <;> rfl
@[simp] theorem State.writeRw_ovr (s : State) (r : Reg16) (v : Word) : (s.writeRw r v).ovr = s.ovr := by cases r <;> rfl
@[simp] theorem State.writeRw_operand (s : State) (r : Reg16) (v : Word) : (s.writeRw r v).operand = s.operand := by cases r <;> rfl
@[simp] theorem State.writeRw_expects (s : State) (r : Reg16) (v : Word) : (s.writeRw r v).expects = s.expects := by cases r <;> rfl
@[simp] theorem State.writeRw_prefixAlone (s : State) (r : Reg16) (v : Word) : (s.writeRw r v).prefixAlone = s.prefixAlone := by cases r <;> rfl
@[simp] theorem State.writeRw_progDone (s : State) (r : Reg16) (v : Word) : (s.writeRw r v).progDone = s.progDone := by cases r <;> rfl
@[simp] theorem State.writeRw_progLeft (s : State) (r : Reg16) (v : Word) : (s.writeRw r v).progLeft = s.progLeft := by cases r <;> rfl
@[simp] theorem State.writeRw_freeCount (s : State) (r : Reg16) (v : Word) : (s.writeRw r v).freeCount = s.freeCount := by cases r <;> rfl

@[simp] theorem State.readSeg_writeRw (s : State) (r : Reg16) (v : Word) (q : SegReg) :
    (s.writeRw r v).readSeg q = s.readSeg q := by cases q <;> simp [State.readSeg]

/-- Writing an 8-bit register is writing its 16-bit register (10_state.md R9). -/
theorem State.writeRb_eq (s : State) (r : Reg8) (v : Byte) : ∃ w, s.writeRb r v = s.writeRw (regWhole r) w := by
  unfold State.writeRb
  split <;> exact ⟨_, rfl⟩

@[simp] theorem State.writeRb_es (s : State) (r : Reg8) (v : Byte) : (s.writeRb r v).es = s.es := by
  obtain ⟨w, h⟩ := s.writeRb_eq r v; simp [h]
@[simp] theorem State.writeRb_cs (s : State) (r : Reg8) (v : Byte) : (s.writeRb r v).cs = s.cs := by
  obtain ⟨w, h⟩ := s.writeRb_eq r v; simp [h]
@[simp] theorem State.writeRb_ss (s : State) (r : Reg8) (v : Byte) : (s.writeRb r v).ss = s.ss := by
  obtain ⟨w, h⟩ := s.writeRb_eq r v; simp [h]
@[simp] theorem State.writeRb_ds (s : State) (r : Reg8) (v : Byte) : (s.writeRb r v).ds = s.ds := by
  obtain ⟨w, h⟩ := s.writeRb_eq r v; simp [h]
@[simp] theorem State.writeRb_ip (s : State) (r : Reg8) (v : Byte) : (s.writeRb r v).ip = s.ip := by
  obtain ⟨w, h⟩ := s.writeRb_eq r v; simp [h]
@[simp] theorem State.writeRb_flags (s : State) (r : Reg8) (v : Byte) : (s.writeRb r v).flags = s.flags := by
  obtain ⟨w, h⟩ := s.writeRb_eq r v; simp [h]
@[simp] theorem State.writeRb_mem (s : State) (r : Reg8) (v : Byte) : (s.writeRb r v).mem = s.mem := by
  obtain ⟨w, h⟩ := s.writeRb_eq r v; simp [h]
@[simp] theorem State.writeRb_ovr (s : State) (r : Reg8) (v : Byte) : (s.writeRb r v).ovr = s.ovr := by
  obtain ⟨w, h⟩ := s.writeRb_eq r v; simp [h]
@[simp] theorem State.writeRb_operand (s : State) (r : Reg8) (v : Byte) : (s.writeRb r v).operand = s.operand := by
  obtain ⟨w, h⟩ := s.writeRb_eq r v; simp [h]
@[simp] theorem State.writeRb_expects (s : State) (r : Reg8) (v : Byte) : (s.writeRb r v).expects = s.expects := by
  obtain ⟨w, h⟩ := s.writeRb_eq r v; simp [h]
@[simp] theorem State.writeRb_prefixAlone (s : State) (r : Reg8) (v : Byte) : (s.writeRb r v).prefixAlone = s.prefixAlone := by
  obtain ⟨w, h⟩ := s.writeRb_eq r v; simp [h]
@[simp] theorem State.writeRb_progDone (s : State) (r : Reg8) (v : Byte) : (s.writeRb r v).progDone = s.progDone := by
  obtain ⟨w, h⟩ := s.writeRb_eq r v; simp [h]
@[simp] theorem State.writeRb_progLeft (s : State) (r : Reg8) (v : Byte) : (s.writeRb r v).progLeft = s.progLeft := by
  obtain ⟨w, h⟩ := s.writeRb_eq r v; simp [h]
@[simp] theorem State.writeRb_freeCount (s : State) (r : Reg8) (v : Byte) : (s.writeRb r v).freeCount = s.freeCount := by
  obtain ⟨w, h⟩ := s.writeRb_eq r v; simp [h]

@[simp] theorem State.readSeg_writeRb (s : State) (r : Reg8) (v : Byte) (q : SegReg) :
    (s.writeRb r v).readSeg q = s.readSeg q := by cases q <;> simp [State.readSeg]

/-! ## Writing a segment register -/

@[simp] theorem State.readSeg_writeSeg_same (s : State) (r : SegReg) (v : Word) : (s.writeSeg r v).readSeg r = v := by
  cases r <;> rfl

theorem State.readSeg_writeSeg_other (s : State) {r q : SegReg} (v : Word) (h : q ≠ r) :
    (s.writeSeg r v).readSeg q = s.readSeg q := by
  cases r <;> cases q <;> first | rfl | exact absurd rfl h

@[simp] theorem State.writeSeg_ax (s : State) (r : SegReg) (v : Word) : (s.writeSeg r v).ax = s.ax := by cases r <;> rfl
@[simp] theorem State.writeSeg_cx (s : State) (r : SegReg) (v : Word) : (s.writeSeg r v).cx = s.cx := by cases r <;> rfl
@[simp] theorem State.writeSeg_dx (s : State) (r : SegReg) (v : Word) : (s.writeSeg r v).dx = s.dx := by cases r <;> rfl
@[simp] theorem State.writeSeg_bx (s : State) (r : SegReg) (v : Word) : (s.writeSeg r v).bx = s.bx := by cases r <;> rfl
@[simp] theorem State.writeSeg_sp (s : State) (r : SegReg) (v : Word) : (s.writeSeg r v).sp = s.sp := by cases r <;> rfl
@[simp] theorem State.writeSeg_bp (s : State) (r : SegReg) (v : Word) : (s.writeSeg r v).bp = s.bp := by cases r <;> rfl
@[simp] theorem State.writeSeg_si (s : State) (r : SegReg) (v : Word) : (s.writeSeg r v).si = s.si := by cases r <;> rfl
@[simp] theorem State.writeSeg_di (s : State) (r : SegReg) (v : Word) : (s.writeSeg r v).di = s.di := by cases r <;> rfl
@[simp] theorem State.writeSeg_ip (s : State) (r : SegReg) (v : Word) : (s.writeSeg r v).ip = s.ip := by cases r <;> rfl
@[simp] theorem State.writeSeg_flags (s : State) (r : SegReg) (v : Word) : (s.writeSeg r v).flags = s.flags := by cases r <;> rfl
@[simp] theorem State.writeSeg_mem (s : State) (r : SegReg) (v : Word) : (s.writeSeg r v).mem = s.mem := by cases r <;> rfl
@[simp] theorem State.writeSeg_ovr (s : State) (r : SegReg) (v : Word) : (s.writeSeg r v).ovr = s.ovr := by cases r <;> rfl
@[simp] theorem State.writeSeg_operand (s : State) (r : SegReg) (v : Word) : (s.writeSeg r v).operand = s.operand := by cases r <;> rfl
@[simp] theorem State.writeSeg_expects (s : State) (r : SegReg) (v : Word) : (s.writeSeg r v).expects = s.expects := by cases r <;> rfl
@[simp] theorem State.writeSeg_prefixAlone (s : State) (r : SegReg) (v : Word) : (s.writeSeg r v).prefixAlone = s.prefixAlone := by cases r <;> rfl
@[simp] theorem State.writeSeg_progDone (s : State) (r : SegReg) (v : Word) : (s.writeSeg r v).progDone = s.progDone := by cases r <;> rfl
@[simp] theorem State.writeSeg_progLeft (s : State) (r : SegReg) (v : Word) : (s.writeSeg r v).progLeft = s.progLeft := by cases r <;> rfl
@[simp] theorem State.writeSeg_freeCount (s : State) (r : SegReg) (v : Word) : (s.writeSeg r v).freeCount = s.freeCount := by cases r <;> rfl

@[simp] theorem State.readRw_writeSeg (s : State) (r : SegReg) (v : Word) (q : Reg16) :
    (s.writeSeg r v).readRw q = s.readRw q := by cases q <;> simp [State.readRw]

@[simp] theorem State.readRb_writeSeg (s : State) (r : SegReg) (v : Word) (q : Reg8) :
    (s.writeSeg r v).readRb q = s.readRb q := by simp [State.readRb]

/-! ## Writing a byte of memory -/

@[simp] theorem State.writeByte_ax (s : State) (a : Loc) (v : Byte) : (s.writeByte a v).ax = s.ax := rfl
@[simp] theorem State.writeByte_cx (s : State) (a : Loc) (v : Byte) : (s.writeByte a v).cx = s.cx := rfl
@[simp] theorem State.writeByte_dx (s : State) (a : Loc) (v : Byte) : (s.writeByte a v).dx = s.dx := rfl
@[simp] theorem State.writeByte_bx (s : State) (a : Loc) (v : Byte) : (s.writeByte a v).bx = s.bx := rfl
@[simp] theorem State.writeByte_sp (s : State) (a : Loc) (v : Byte) : (s.writeByte a v).sp = s.sp := rfl
@[simp] theorem State.writeByte_bp (s : State) (a : Loc) (v : Byte) : (s.writeByte a v).bp = s.bp := rfl
@[simp] theorem State.writeByte_si (s : State) (a : Loc) (v : Byte) : (s.writeByte a v).si = s.si := rfl
@[simp] theorem State.writeByte_di (s : State) (a : Loc) (v : Byte) : (s.writeByte a v).di = s.di := rfl
@[simp] theorem State.writeByte_es (s : State) (a : Loc) (v : Byte) : (s.writeByte a v).es = s.es := rfl
@[simp] theorem State.writeByte_cs (s : State) (a : Loc) (v : Byte) : (s.writeByte a v).cs = s.cs := rfl
@[simp] theorem State.writeByte_ss (s : State) (a : Loc) (v : Byte) : (s.writeByte a v).ss = s.ss := rfl
@[simp] theorem State.writeByte_ds (s : State) (a : Loc) (v : Byte) : (s.writeByte a v).ds = s.ds := rfl
@[simp] theorem State.writeByte_ip (s : State) (a : Loc) (v : Byte) : (s.writeByte a v).ip = s.ip := rfl
@[simp] theorem State.writeByte_flags (s : State) (a : Loc) (v : Byte) : (s.writeByte a v).flags = s.flags := rfl
@[simp] theorem State.writeByte_mem (s : State) (a : Loc) (v : Byte) : (s.writeByte a v).mem = memWrite s.mem a.toNat v := rfl
@[simp] theorem State.writeByte_ovr (s : State) (a : Loc) (v : Byte) : (s.writeByte a v).ovr = s.ovr := rfl
@[simp] theorem State.writeByte_operand (s : State) (a : Loc) (v : Byte) : (s.writeByte a v).operand = s.operand := rfl
@[simp] theorem State.writeByte_expects (s : State) (a : Loc) (v : Byte) : (s.writeByte a v).expects = s.expects := rfl
@[simp] theorem State.writeByte_prefixAlone (s : State) (a : Loc) (v : Byte) : (s.writeByte a v).prefixAlone = s.prefixAlone := rfl
@[simp] theorem State.writeByte_progDone (s : State) (a : Loc) (v : Byte) : (s.writeByte a v).progDone = s.progDone := rfl
@[simp] theorem State.writeByte_progLeft (s : State) (a : Loc) (v : Byte) : (s.writeByte a v).progLeft = s.progLeft := rfl
@[simp] theorem State.writeByte_freeCount (s : State) (a : Loc) (v : Byte) : (s.writeByte a v).freeCount = s.freeCount := rfl
@[simp] theorem State.readRw_writeByte (s : State) (a : Loc) (v : Byte) (q : Reg16) : (s.writeByte a v).readRw q = s.readRw q := rfl
@[simp] theorem State.readRb_writeByte (s : State) (a : Loc) (v : Byte) (q : Reg8) : (s.writeByte a v).readRb q = s.readRb q := rfl
@[simp] theorem State.readSeg_writeByte (s : State) (a : Loc) (v : Byte) (q : SegReg) : (s.writeByte a v).readSeg q = s.readSeg q := rfl

/-! ## Writing 8 bits through a segment -/

@[simp] theorem State.segWrite8_ax (s : State) (seg off : Word) (v : Byte) : (s.segWrite8 seg off v).ax = s.ax := rfl
@[simp] theorem State.segWrite8_cx (s : State) (seg off : Word) (v : Byte) : (s.segWrite8 seg off v).cx = s.cx := rfl
@[simp] theorem State.segWrite8_dx (s : State) (seg off : Word) (v : Byte) : (s.segWrite8 seg off v).dx = s.dx := rfl
@[simp] theorem State.segWrite8_bx (s : State) (seg off : Word) (v : Byte) : (s.segWrite8 seg off v).bx = s.bx := rfl
@[simp] theorem State.segWrite8_sp (s : State) (seg off : Word) (v : Byte) : (s.segWrite8 seg off v).sp = s.sp := rfl
@[simp] theorem State.segWrite8_bp (s : State) (seg off : Word) (v : Byte) : (s.segWrite8 seg off v).bp = s.bp := rfl
@[simp] theorem State.segWrite8_si (s : State) (seg off : Word) (v : Byte) : (s.segWrite8 seg off v).si = s.si := rfl
@[simp] theorem State.segWrite8_di (s : State) (seg off : Word) (v : Byte) : (s.segWrite8 seg off v).di = s.di := rfl
@[simp] theorem State.segWrite8_es (s : State) (seg off : Word) (v : Byte) : (s.segWrite8 seg off v).es = s.es := rfl
@[simp] theorem State.segWrite8_cs (s : State) (seg off : Word) (v : Byte) : (s.segWrite8 seg off v).cs = s.cs := rfl
@[simp] theorem State.segWrite8_ss (s : State) (seg off : Word) (v : Byte) : (s.segWrite8 seg off v).ss = s.ss := rfl
@[simp] theorem State.segWrite8_ds (s : State) (seg off : Word) (v : Byte) : (s.segWrite8 seg off v).ds = s.ds := rfl
@[simp] theorem State.segWrite8_ip (s : State) (seg off : Word) (v : Byte) : (s.segWrite8 seg off v).ip = s.ip := rfl
@[simp] theorem State.segWrite8_flags (s : State) (seg off : Word) (v : Byte) : (s.segWrite8 seg off v).flags = s.flags := rfl
@[simp] theorem State.segWrite8_ovr (s : State) (seg off : Word) (v : Byte) : (s.segWrite8 seg off v).ovr = s.ovr := rfl
@[simp] theorem State.segWrite8_operand (s : State) (seg off : Word) (v : Byte) : (s.segWrite8 seg off v).operand = s.operand := rfl
@[simp] theorem State.segWrite8_expects (s : State) (seg off : Word) (v : Byte) : (s.segWrite8 seg off v).expects = s.expects := rfl
@[simp] theorem State.segWrite8_prefixAlone (s : State) (seg off : Word) (v : Byte) : (s.segWrite8 seg off v).prefixAlone = s.prefixAlone := rfl
@[simp] theorem State.segWrite8_progDone (s : State) (seg off : Word) (v : Byte) : (s.segWrite8 seg off v).progDone = s.progDone := rfl
@[simp] theorem State.segWrite8_progLeft (s : State) (seg off : Word) (v : Byte) : (s.segWrite8 seg off v).progLeft = s.progLeft := rfl
@[simp] theorem State.segWrite8_freeCount (s : State) (seg off : Word) (v : Byte) : (s.segWrite8 seg off v).freeCount = s.freeCount := rfl
@[simp] theorem State.readRw_segWrite8 (s : State) (seg off : Word) (v : Byte) (q : Reg16) :
    (s.segWrite8 seg off v).readRw q = s.readRw q := rfl
@[simp] theorem State.readRb_segWrite8 (s : State) (seg off : Word) (v : Byte) (q : Reg8) :
    (s.segWrite8 seg off v).readRb q = s.readRb q := rfl
@[simp] theorem State.readSeg_segWrite8 (s : State) (seg off : Word) (v : Byte) (q : SegReg) :
    (s.segWrite8 seg off v).readSeg q = s.readSeg q := rfl

/-! ## Writing 16 bits through a segment -/

@[simp] theorem State.segWrite16_ax (s : State) (seg off : Word) (v : Word) : (s.segWrite16 seg off v).ax = s.ax := rfl
@[simp] theorem State.segWrite16_cx (s : State) (seg off : Word) (v : Word) : (s.segWrite16 seg off v).cx = s.cx := rfl
@[simp] theorem State.segWrite16_dx (s : State) (seg off : Word) (v : Word) : (s.segWrite16 seg off v).dx = s.dx := rfl
@[simp] theorem State.segWrite16_bx (s : State) (seg off : Word) (v : Word) : (s.segWrite16 seg off v).bx = s.bx := rfl
@[simp] theorem State.segWrite16_sp (s : State) (seg off : Word) (v : Word) : (s.segWrite16 seg off v).sp = s.sp := rfl
@[simp] theorem State.segWrite16_bp (s : State) (seg off : Word) (v : Word) : (s.segWrite16 seg off v).bp = s.bp := rfl
@[simp] theorem State.segWrite16_si (s : State) (seg off : Word) (v : Word) : (s.segWrite16 seg off v).si = s.si := rfl
@[simp] theorem State.segWrite16_di (s : State) (seg off : Word) (v : Word) : (s.segWrite16 seg off v).di = s.di := rfl
@[simp] theorem State.segWrite16_es (s : State) (seg off : Word) (v : Word) : (s.segWrite16 seg off v).es = s.es := rfl
@[simp] theorem State.segWrite16_cs (s : State) (seg off : Word) (v : Word) : (s.segWrite16 seg off v).cs = s.cs := rfl
@[simp] theorem State.segWrite16_ss (s : State) (seg off : Word) (v : Word) : (s.segWrite16 seg off v).ss = s.ss := rfl
@[simp] theorem State.segWrite16_ds (s : State) (seg off : Word) (v : Word) : (s.segWrite16 seg off v).ds = s.ds := rfl
@[simp] theorem State.segWrite16_ip (s : State) (seg off : Word) (v : Word) : (s.segWrite16 seg off v).ip = s.ip := rfl
@[simp] theorem State.segWrite16_flags (s : State) (seg off : Word) (v : Word) : (s.segWrite16 seg off v).flags = s.flags := rfl
@[simp] theorem State.segWrite16_ovr (s : State) (seg off : Word) (v : Word) : (s.segWrite16 seg off v).ovr = s.ovr := rfl
@[simp] theorem State.segWrite16_operand (s : State) (seg off : Word) (v : Word) : (s.segWrite16 seg off v).operand = s.operand := rfl
@[simp] theorem State.segWrite16_expects (s : State) (seg off : Word) (v : Word) : (s.segWrite16 seg off v).expects = s.expects := rfl
@[simp] theorem State.segWrite16_prefixAlone (s : State) (seg off : Word) (v : Word) : (s.segWrite16 seg off v).prefixAlone = s.prefixAlone := rfl
@[simp] theorem State.segWrite16_progDone (s : State) (seg off : Word) (v : Word) : (s.segWrite16 seg off v).progDone = s.progDone := rfl
@[simp] theorem State.segWrite16_progLeft (s : State) (seg off : Word) (v : Word) : (s.segWrite16 seg off v).progLeft = s.progLeft := rfl
@[simp] theorem State.segWrite16_freeCount (s : State) (seg off : Word) (v : Word) : (s.segWrite16 seg off v).freeCount = s.freeCount := rfl
@[simp] theorem State.readRw_segWrite16 (s : State) (seg off : Word) (v : Word) (q : Reg16) :
    (s.segWrite16 seg off v).readRw q = s.readRw q := rfl
@[simp] theorem State.readRb_segWrite16 (s : State) (seg off : Word) (v : Word) (q : Reg8) :
    (s.segWrite16 seg off v).readRb q = s.readRb q := rfl
@[simp] theorem State.readSeg_segWrite16 (s : State) (seg off : Word) (v : Word) (q : SegReg) :
    (s.segWrite16 seg off v).readSeg q = s.readSeg q := rfl

/-! ## Keeping an operand -/

@[simp] theorem State.latch_ax (s : State) (op : Operand) : (s.latch op).ax = s.ax := rfl
@[simp] theorem State.latch_cx (s : State) (op : Operand) : (s.latch op).cx = s.cx := rfl
@[simp] theorem State.latch_dx (s : State) (op : Operand) : (s.latch op).dx = s.dx := rfl
@[simp] theorem State.latch_bx (s : State) (op : Operand) : (s.latch op).bx = s.bx := rfl
@[simp] theorem State.latch_sp (s : State) (op : Operand) : (s.latch op).sp = s.sp := rfl
@[simp] theorem State.latch_bp (s : State) (op : Operand) : (s.latch op).bp = s.bp := rfl
@[simp] theorem State.latch_si (s : State) (op : Operand) : (s.latch op).si = s.si := rfl
@[simp] theorem State.latch_di (s : State) (op : Operand) : (s.latch op).di = s.di := rfl
@[simp] theorem State.latch_es (s : State) (op : Operand) : (s.latch op).es = s.es := rfl
@[simp] theorem State.latch_cs (s : State) (op : Operand) : (s.latch op).cs = s.cs := rfl
@[simp] theorem State.latch_ss (s : State) (op : Operand) : (s.latch op).ss = s.ss := rfl
@[simp] theorem State.latch_ds (s : State) (op : Operand) : (s.latch op).ds = s.ds := rfl
@[simp] theorem State.latch_ip (s : State) (op : Operand) : (s.latch op).ip = s.ip := rfl
@[simp] theorem State.latch_flags (s : State) (op : Operand) : (s.latch op).flags = s.flags := rfl
@[simp] theorem State.latch_mem (s : State) (op : Operand) : (s.latch op).mem = s.mem := rfl
@[simp] theorem State.latch_ovr (s : State) (op : Operand) : (s.latch op).ovr = s.ovr := rfl
@[simp] theorem State.latch_operand (s : State) (op : Operand) : (s.latch op).operand = some op := rfl
@[simp] theorem State.latch_expects (s : State) (op : Operand) : (s.latch op).expects = s.expects := rfl
@[simp] theorem State.latch_prefixAlone (s : State) (op : Operand) : (s.latch op).prefixAlone = s.prefixAlone := rfl
@[simp] theorem State.latch_progDone (s : State) (op : Operand) : (s.latch op).progDone = s.progDone := rfl
@[simp] theorem State.latch_progLeft (s : State) (op : Operand) : (s.latch op).progLeft = s.progLeft := rfl
@[simp] theorem State.latch_freeCount (s : State) (op : Operand) : (s.latch op).freeCount = s.freeCount := rfl

/-! ## FLAGS after arithmetic -/

@[simp] theorem State.setFlags_ax (s : State) (x : Word) : (s.setFlags x).ax = s.ax := rfl
@[simp] theorem State.setFlags_cx (s : State) (x : Word) : (s.setFlags x).cx = s.cx := rfl
@[simp] theorem State.setFlags_dx (s : State) (x : Word) : (s.setFlags x).dx = s.dx := rfl
@[simp] theorem State.setFlags_bx (s : State) (x : Word) : (s.setFlags x).bx = s.bx := rfl
@[simp] theorem State.setFlags_sp (s : State) (x : Word) : (s.setFlags x).sp = s.sp := rfl
@[simp] theorem State.setFlags_bp (s : State) (x : Word) : (s.setFlags x).bp = s.bp := rfl
@[simp] theorem State.setFlags_si (s : State) (x : Word) : (s.setFlags x).si = s.si := rfl
@[simp] theorem State.setFlags_di (s : State) (x : Word) : (s.setFlags x).di = s.di := rfl
@[simp] theorem State.setFlags_es (s : State) (x : Word) : (s.setFlags x).es = s.es := rfl
@[simp] theorem State.setFlags_cs (s : State) (x : Word) : (s.setFlags x).cs = s.cs := rfl
@[simp] theorem State.setFlags_ss (s : State) (x : Word) : (s.setFlags x).ss = s.ss := rfl
@[simp] theorem State.setFlags_ds (s : State) (x : Word) : (s.setFlags x).ds = s.ds := rfl
@[simp] theorem State.setFlags_ip (s : State) (x : Word) : (s.setFlags x).ip = s.ip := rfl
@[simp] theorem State.setFlags_flags (s : State) (x : Word) : (s.setFlags x).flags = Config.freeFlags s.freeCount := rfl
@[simp] theorem State.setFlags_mem (s : State) (x : Word) : (s.setFlags x).mem = s.mem := rfl
@[simp] theorem State.setFlags_ovr (s : State) (x : Word) : (s.setFlags x).ovr = s.ovr := rfl
@[simp] theorem State.setFlags_operand (s : State) (x : Word) : (s.setFlags x).operand = s.operand := rfl
@[simp] theorem State.setFlags_expects (s : State) (x : Word) : (s.setFlags x).expects = s.expects := rfl
@[simp] theorem State.setFlags_prefixAlone (s : State) (x : Word) : (s.setFlags x).prefixAlone = s.prefixAlone := rfl
@[simp] theorem State.setFlags_progDone (s : State) (x : Word) : (s.setFlags x).progDone = s.progDone := rfl
@[simp] theorem State.setFlags_progLeft (s : State) (x : Word) : (s.setFlags x).progLeft = s.progLeft := rfl
@[simp] theorem State.setFlags_freeCount (s : State) (x : Word) : (s.setFlags x).freeCount = s.freeCount + 1 := rfl
@[simp] theorem State.readRw_setFlags (s : State) (x : Word) (q : Reg16) : (s.setFlags x).readRw q = s.readRw q := rfl
@[simp] theorem State.readRb_setFlags (s : State) (x : Word) (q : Reg8) : (s.setFlags x).readRb q = s.readRb q := rfl
@[simp] theorem State.readSeg_setFlags (s : State) (x : Word) (q : SegReg) : (s.setFlags x).readSeg q = s.readSeg q := rfl

/-! ## The end of an instruction -/

@[simp] theorem State.retire_ax (s : State) (n : Nat) : (s.retire n).ax = s.ax := rfl
@[simp] theorem State.retire_cx (s : State) (n : Nat) : (s.retire n).cx = s.cx := rfl
@[simp] theorem State.retire_dx (s : State) (n : Nat) : (s.retire n).dx = s.dx := rfl
@[simp] theorem State.retire_bx (s : State) (n : Nat) : (s.retire n).bx = s.bx := rfl
@[simp] theorem State.retire_sp (s : State) (n : Nat) : (s.retire n).sp = s.sp := rfl
@[simp] theorem State.retire_bp (s : State) (n : Nat) : (s.retire n).bp = s.bp := rfl
@[simp] theorem State.retire_si (s : State) (n : Nat) : (s.retire n).si = s.si := rfl
@[simp] theorem State.retire_di (s : State) (n : Nat) : (s.retire n).di = s.di := rfl
@[simp] theorem State.retire_es (s : State) (n : Nat) : (s.retire n).es = s.es := rfl
@[simp] theorem State.retire_cs (s : State) (n : Nat) : (s.retire n).cs = s.cs := rfl
@[simp] theorem State.retire_ss (s : State) (n : Nat) : (s.retire n).ss = s.ss := rfl
@[simp] theorem State.retire_ds (s : State) (n : Nat) : (s.retire n).ds = s.ds := rfl
@[simp] theorem State.retire_ip (s : State) (n : Nat) : (s.retire n).ip = s.ip + BitVec.ofNat 16 (s.prefixLen + n) := rfl
@[simp] theorem State.retire_flags (s : State) (n : Nat) : (s.retire n).flags = s.flags := rfl
@[simp] theorem State.retire_mem (s : State) (n : Nat) : (s.retire n).mem = s.mem := rfl
@[simp] theorem State.retire_ovr (s : State) (n : Nat) : (s.retire n).ovr = none := rfl
@[simp] theorem State.retire_operand (s : State) (n : Nat) : (s.retire n).operand = none := rfl
@[simp] theorem State.retire_expects (s : State) (n : Nat) : (s.retire n).expects = s.expects := rfl
@[simp] theorem State.retire_prefixAlone (s : State) (n : Nat) : (s.retire n).prefixAlone = s.prefixAlone := rfl
@[simp] theorem State.retire_progDone (s : State) (n : Nat) : (s.retire n).progDone = s.progDone + (s.prefixLen + n) := rfl
@[simp] theorem State.retire_progLeft (s : State) (n : Nat) : (s.retire n).progLeft = s.progLeft - (s.prefixLen + n) := rfl
@[simp] theorem State.retire_freeCount (s : State) (n : Nat) : (s.retire n).freeCount = s.freeCount := rfl
@[simp] theorem State.readRw_retire (s : State) (n : Nat) (q : Reg16) : (s.retire n).readRw q = s.readRw q := rfl
@[simp] theorem State.readRb_retire (s : State) (n : Nat) (q : Reg8) : (s.retire n).readRb q = s.readRb q := rfl
@[simp] theorem State.readSeg_retire (s : State) (n : Nat) (q : SegReg) : (s.retire n).readSeg q = s.readSeg q := rfl

/-! ## The length of a pending prefix -/

@[simp] theorem State.prefixLen_writeRw (s : State) (r : Reg16) (v : Word) : (s.writeRw r v).prefixLen = s.prefixLen := by
  simp [State.prefixLen]
@[simp] theorem State.prefixLen_writeRb (s : State) (r : Reg8) (v : Byte) : (s.writeRb r v).prefixLen = s.prefixLen := by
  simp [State.prefixLen]
@[simp] theorem State.prefixLen_segWrite8 (s : State) (seg off : Word) (v : Byte) : (s.segWrite8 seg off v).prefixLen = s.prefixLen := rfl
@[simp] theorem State.prefixLen_segWrite16 (s : State) (seg off : Word) (v : Word) : (s.segWrite16 seg off v).prefixLen = s.prefixLen := rfl
@[simp] theorem State.prefixLen_setFlags (s : State) (x : Word) : (s.setFlags x).prefixLen = s.prefixLen := rfl
@[simp] theorem State.prefixLen_latch (s : State) (op : Operand) : (s.latch op).prefixLen = s.prefixLen := rfl

/-! ## Halves of a register -/

theorem toNat_wordOf (b0 b1 : Byte) : (wordOf b0 b1).toNat = b1.toNat * 256 + b0.toNat := by
  have h0 := b0.isLt
  have h1 := b1.isLt
  simp only [wordOf, BitVec.toNat_ofNat]
  omega

@[simp] theorem loByte_wordOf (b0 b1 : Byte) : loByte (wordOf b0 b1) = b0 := by
  have h0 := b0.isLt
  apply BitVec.eq_of_toNat_eq
  simp only [loByte, toNat_wordOf, BitVec.toNat_ofNat]
  omega

@[simp] theorem hiByte_wordOf (b0 b1 : Byte) : hiByte (wordOf b0 b1) = b1 := by
  have h0 := b0.isLt
  have h1 := b1.isLt
  apply BitVec.eq_of_toNat_eq
  simp only [hiByte, toNat_wordOf, BitVec.toNat_ofNat]
  omega

@[simp] theorem wordOf_lo_hi (w : Word) : wordOf (loByte w) (hiByte w) = w := by
  have h := w.isLt
  apply BitVec.eq_of_toNat_eq
  simp only [hiByte, loByte, toNat_wordOf, BitVec.toNat_ofNat]
  omega

end Sys2Proof.Machine
end

