-- ==== Sys2Proof/Laws/Memory.lean ====
section
/-! SUPPORT. What reading and writing memory do, once: a byte, 16 bits through a segment, and the canonical form. -/

namespace Sys2Proof.Machine

/-! ## One byte of a memory -/

@[simp] theorem Memory.wfFrom_cons (lo k : Nat) (v : Byte) (m : Memory) :
    Memory.wfFrom lo ((k, v) :: m) = true ↔
      lo ≤ k ∧ k < 1048576 ∧ v ≠ Config.unwrittenByte ∧ Memory.wfFrom (k + 1) m = true := by
  simp [Memory.wfFrom, and_assoc]

theorem Memory.wfFrom_mono {lo lo' : Nat} {m : Memory} (h : Memory.wfFrom lo m = true) (hl : lo' ≤ lo) :
    Memory.wfFrom lo' m = true := by
  cases m with
  | nil => rfl
  | cons c m =>
    obtain ⟨k, v⟩ := c
    rw [Memory.wfFrom_cons] at h ⊢
    exact ⟨Nat.le_trans hl h.1, h.2⟩

/-- Nothing is listed below the least location of a memory in canonical form. -/
theorem memRead_below {lo a : Nat} {m : Memory} (h : Memory.wfFrom lo m = true) (ha : a < lo) :
    memRead m a = Config.unwrittenByte := by
  induction m generalizing lo with
  | nil => rfl
  | cons c m ih =>
    obtain ⟨k, v⟩ := c
    obtain ⟨hk, _, _, hm⟩ := (Memory.wfFrom_cons lo k v m).1 h
    have hne : a ≠ k := by omega
    simp only [memRead, hne, if_false]
    exact ih hm (by omega)

/-- "`MemWrite` ... replaces that byte" (20_memory.md R27). -/
theorem memRead_memWrite_same {lo : Nat} {m : Memory} (h : Memory.wfFrom lo m = true) (a : Nat) (v : Byte) :
    memRead (memWrite m a v) a = v := by
  induction m generalizing lo with
  | nil =>
    by_cases hv : v = Config.unwrittenByte <;> simp [memWrite, memRead, hv]
  | cons c m ih =>
    obtain ⟨k, w⟩ := c
    obtain ⟨hk, _, _, hm⟩ := (Memory.wfFrom_cons lo k w m).1 h
    simp only [memWrite]
    by_cases h1 : a < k
    · have hne : a ≠ k := by omega
      by_cases hv : v = Config.unwrittenByte
      · simp only [h1, hv, if_true, memRead, hne, if_false]
        exact memRead_below hm (by omega)
      · simp [h1, hv, memRead]
    · by_cases h2 : a = k
      · by_cases hv : v = Config.unwrittenByte
        · simp only [h2, hv, if_true, if_false, Nat.lt_irrefl]
          exact memRead_below hm (by omega)
        · simp [h2, hv, memRead]
      · simp only [h1, h2, if_false, memRead]
        exact ih hm

/-- "... and changes no other byte" (R27). -/
theorem memRead_memWrite_other (m : Memory) {a b : Nat} (v : Byte) (h : b ≠ a) :
    memRead (memWrite m a v) b = memRead m b := by
  induction m with
  | nil =>
    by_cases hv : v = Config.unwrittenByte <;> simp [memWrite, memRead, hv, h]
  | cons c m ih =>
    obtain ⟨k, w⟩ := c
    simp only [memWrite]
    by_cases h1 : a < k
    · by_cases hv : v = Config.unwrittenByte <;> simp [h1, hv, memRead, h]
    · by_cases h2 : a = k
      · have hk : b ≠ k := h2 ▸ h
        by_cases hv : v = Config.unwrittenByte <;> simp [h2, hv, memRead, hk]
      · simp [h1, h2, memRead, ih]

/-- Writing keeps the canonical form. -/
theorem Memory.wfFrom_memWrite {lo a : Nat} {m : Memory} (h : Memory.wfFrom lo m = true) (hl : lo ≤ a) (ha : a < 1048576)
    (v : Byte) : Memory.wfFrom lo (memWrite m a v) = true := by
  induction m generalizing lo with
  | nil =>
    by_cases hv : v = Config.unwrittenByte
    · simp [memWrite, hv, Memory.wfFrom]
    · simp only [memWrite, hv, if_false, Memory.wfFrom_cons]
      exact ⟨hl, ha, hv, rfl⟩
  | cons c m ih =>
    obtain ⟨k, w⟩ := c
    have hc := (Memory.wfFrom_cons lo k w m).1 h
    obtain ⟨hk, hk2, hw, hm⟩ := hc
    simp only [memWrite]
    by_cases h1 : a < k
    · by_cases hv : v = Config.unwrittenByte
      · simpa [h1, hv] using And.intro hk ⟨hk2, hw, hm⟩
      · simp only [h1, hv, if_true, if_false, Memory.wfFrom_cons]
        exact ⟨hl, ha, hv, by omega, hk2, hw, hm⟩
    · by_cases h2 : a = k
      · by_cases hv : v = Config.unwrittenByte
        · simp only [h2, hv, if_true, if_false, Nat.lt_irrefl]
          exact Memory.wfFrom_mono hm (by omega)
        · simp only [h2, hv, if_true, if_false, Nat.lt_irrefl, Memory.wfFrom_cons]
          exact ⟨hk, hk2, hv, hm⟩
      · simp only [h1, h2, if_false, Memory.wfFrom_cons]
        exact ⟨hk, hk2, hw, ih hm (by omega)⟩

theorem Memory.wf_memWrite {m : Memory} (h : m.wf = true) (a : Loc) (v : Byte) : (memWrite m a.toNat v).wf = true :=
  Memory.wfFrom_memWrite h (Nat.zero_le _) a.isLt v

/-! ## One byte of a state -/

theorem State.readByte_writeByte_same {s : State} (h : s.mem.wf = true) (a : Loc) (v : Byte) :
    (s.writeByte a v).readByte a = v := memRead_memWrite_same h _ _

theorem State.readByte_writeByte_other (s : State) {a b : Loc} (v : Byte) (h : b ≠ a) :
    (s.writeByte a v).readByte b = s.readByte b :=
  memRead_memWrite_other _ _ fun e => h (BitVec.eq_of_toNat_eq e)

theorem State.wf_writeByte {s : State} (h : s.mem.wf = true) (a : Loc) (v : Byte) : (s.writeByte a v).mem.wf = true :=
  Memory.wf_memWrite h a v

theorem State.wf_segWrite8 {s : State} (h : s.mem.wf = true) (seg off : Word) (v : Byte) :
    (s.segWrite8 seg off v).mem.wf = true := State.wf_writeByte h _ _

theorem State.wf_segWrite16 {s : State} (h : s.mem.wf = true) (seg off v : Word) :
    (s.segWrite16 seg off v).mem.wf = true := State.wf_segWrite8 (State.wf_segWrite8 h _ _ _) _ _ _

theorem State.wf_segWrite32 {s : State} (h : s.mem.wf = true) (seg off : Word) (v : BitVec 32) :
    (s.segWrite32 seg off v).mem.wf = true := State.wf_segWrite16 (State.wf_segWrite16 h _ _ _) _ _ _

theorem State.wf_placeBytes {s : State} (h : s.mem.wf = true) (off : Word) (bs : List Byte) :
    (s.placeBytes off bs).mem.wf = true := by
  induction bs generalizing s off with
  | nil => exact h
  | cons b bs ih => exact ih (State.wf_segWrite8 h _ _ _) _

/-! ## Locations -/

theorem phys_toNat (seg off : Word) : (phys seg off).toNat = (seg.toNat * 16 + off.toNat) % 1048576 := by
  simp [phys]

/-- Within one segment different offsets are different locations: the window is smaller than the memory (R23). -/
theorem phys_inj {seg o1 o2 : Word} (h : phys seg o1 = phys seg o2) : o1 = o2 := by
  have h' := congrArg BitVec.toNat h
  simp only [phys_toNat] at h'
  have := o1.isLt
  have := o2.isLt
  apply BitVec.eq_of_toNat_eq
  omega

theorem word_ne_succ (off : Word) : off ≠ off + 1 := by
  intro h
  have h' := congrArg BitVec.toNat h
  have := off.isLt
  simp at h'
  omega

theorem phys_ne_succ (seg off : Word) : phys seg off ≠ phys seg (off + 1) := fun h => word_ne_succ off (phys_inj h)

/-! ## Eight and sixteen bits through a segment -/

theorem State.segRead8_segWrite8_same {s : State} (h : s.mem.wf = true) (seg off : Word) (v : Byte) :
    (s.segWrite8 seg off v).segRead8 seg off = v := State.readByte_writeByte_same h _ _

/-- `SegWrite` then `SegRead` of the same word (R28), the wrap at offset 0xFFFF included. -/
theorem State.segRead16_segWrite16_same {s : State} (h : s.mem.wf = true) (seg off v : Word) :
    (s.segWrite16 seg off v).segRead16 seg off = v := by
  have h1 := State.wf_segWrite8 h seg off (loByte v)
  simp only [State.segRead16, State.segWrite16]
  rw [State.segRead8_segWrite8_same h1]
  have : ((s.segWrite8 seg off (loByte v)).segWrite8 seg (off + 1) (hiByte v)).segRead8 seg off = loByte v := by
    rw [State.segRead8, State.segWrite8, State.readByte_writeByte_other _ _ (phys_ne_succ seg off)]
    exact State.segRead8_segWrite8_same h seg off _
  rw [this, wordOf_lo_hi]

theorem State.readByte_segWrite8_other (s : State) {seg off : Word} {b : Loc} (v : Byte) (h : b ≠ phys seg off) :
    (s.segWrite8 seg off v).readByte b = s.readByte b := State.readByte_writeByte_other s v h

theorem State.readByte_segWrite16_other (s : State) {seg off : Word} {b : Loc} (v : Word) (h0 : b ≠ phys seg off)
    (h1 : b ≠ phys seg (off + 1)) : (s.segWrite16 seg off v).readByte b = s.readByte b := by
  rw [State.segWrite16, State.readByte_segWrite8_other _ _ h1, State.readByte_segWrite8_other _ _ h0]

/-! ## The operand -/

/-- All that `WriteEA` at one byte can do (40_effective_address.md R98). -/
theorem State.writeEA8_next {s t : State} {op : Operand} {v : Byte} (h : s.writeEA8 op v = .next t) :
    (∃ i, op = .reg i ∧ t = s.writeRb i.rb v) ∨
    (∃ off d, op = .mem off d ∧ s.hitsProgram (s.eaSeg d) off 1 = false ∧ t = s.segWrite8 (s.eaSeg d) off v) := by
  cases op with
  | reg i =>
    simp only [State.writeEA8, Host.Outcome.next.injEq] at h
    exact .inl ⟨i, rfl, h.symm⟩
  | mem off d =>
    simp only [State.writeEA8] at h
    split at h
    · cases h
    · rename_i hh
      simp only [Host.Outcome.next.injEq] at h
      exact .inr ⟨off, d, rfl, by simpa using hh, h.symm⟩

/-- All that `WriteEA` at two bytes can do (R98). -/
theorem State.writeEA16_next {s t : State} {op : Operand} {v : Word} (h : s.writeEA16 op v = .next t) :
    (∃ i, op = .reg i ∧ t = s.writeRw i.rw v) ∨
    (∃ off d, op = .mem off d ∧ s.hitsProgram (s.eaSeg d) off 2 = false ∧ t = s.segWrite16 (s.eaSeg d) off v) := by
  cases op with
  | reg i =>
    simp only [State.writeEA16, Host.Outcome.next.injEq] at h
    exact .inl ⟨i, rfl, h.symm⟩
  | mem off d =>
    simp only [State.writeEA16] at h
    split at h
    · cases h
    · rename_i hh
      simp only [Host.Outcome.next.injEq] at h
      exact .inr ⟨off, d, rfl, by simpa using hh, h.symm⟩

theorem State.writeEA8_mem {s : State} {off : Word} {d : SegReg} (h : s.hitsProgram (s.eaSeg d) off 1 = false) (v : Byte) :
    s.writeEA8 (.mem off d) v = .next (s.segWrite8 (s.eaSeg d) off v) := by simp [State.writeEA8, h]

theorem State.writeEA16_mem {s : State} {off : Word} {d : SegReg} (h : s.hitsProgram (s.eaSeg d) off 2 = false) (v : Word) :
    s.writeEA16 (.mem off d) v = .next (s.segWrite16 (s.eaSeg d) off v) := by simp [State.writeEA16, h]

@[simp] theorem State.writeEA8_reg (s : State) (i : Digit) (v : Byte) : s.writeEA8 (.reg i) v = .next (s.writeRb i.rb v) := rfl

@[simp] theorem State.writeEA16_reg (s : State) (i : Digit) (v : Word) : s.writeEA16 (.reg i) v = .next (s.writeRw i.rw v) := rfl

@[simp] theorem andThen_next (s : State) (k : State → Res) : andThen (.next s) k = k s := rfl

/-- What `andThen` answers a next state for. -/
theorem andThen_eq_next {r : Res} {k : State → Res} {t : State} (h : andThen r k = .next t) :
    ∃ u, r = .next u ∧ k u = .next t := by
  cases r with
  | next u => exact ⟨u, rfl, h⟩
  | fault f => cases h
  | refused f => cases h

end Sys2Proof.Machine
end

