-- ==== Sys2Proof/Laws/PerInstr.lean ====
section
/-! SUPPORT. Statements made per instruction. EncodedLength: the encoding of every row has the length the length rule gives it
(30_encoding.md R48), between one byte and the six of the longest instruction, its prefix not counted. -/

namespace Sys2Proof.Laws.EncodedLength

/-- The bytes of a row are as many as R48 says. -/
def Statement (i : Instr) : Prop := (encode i).length = i.byteLength ∧ 1 ≤ i.byteLength ∧ i.byteLength ≤ 6

theorem encodeEa_length (c : Digit) (ea : Ea) : (encodeEa c ea).length = 1 + ea.dispLen := by
  cases ea <;> rfl

theorem dispLen_le (ea : Ea) : ea.dispLen ≤ 2 := by
  cases ea <;> simp [Ea.dispLen]

/-- The length of an instruction that has an effective address: opcode byte, effective address byte, displacement, immediate. -/
theorem of_op {i : Instr} {op : Byte} {c : Digit} {ea : Ea} {imm : List Byte} (he : encode i = op :: encodeEa c ea ++ imm)
    (hl : i.byteLength = 2 + ea.dispLen + imm.length) (hi : imm.length ≤ 2) : Statement i := by
  have h1 := encodeEa_length c ea
  have h2 := dispLen_le ea
  refine ⟨?_, by omega, by omega⟩
  rw [he, hl]
  simp only [List.length_cons, List.length_append, h1]
  omega

/-- The length of a row whose length is a numeral. -/
theorem of_form {i : Instr} (n : Nat) (he : (encode i).length = n) (hl : i.byteLength = n) (h : 1 ≤ n ∧ n ≤ 6) : Statement i :=
  ⟨he.trans hl.symm, hl ▸ h.1, hl ▸ h.2⟩

theorem eaBxSi (c : Digit) : Statement (.eaBxSi c) :=
  of_form 1 rfl rfl (by decide)

theorem eaBxDi (c : Digit) : Statement (.eaBxDi c) :=
  of_form 1 rfl rfl (by decide)

theorem eaBpSi (c : Digit) : Statement (.eaBpSi c) :=
  of_form 1 rfl rfl (by decide)

theorem eaBpDi (c : Digit) : Statement (.eaBpDi c) :=
  of_form 1 rfl rfl (by decide)

theorem eaSi (c : Digit) : Statement (.eaSi c) :=
  of_form 1 rfl rfl (by decide)

theorem eaDi (c : Digit) : Statement (.eaDi c) :=
  of_form 1 rfl rfl (by decide)

theorem eaVar (c : Digit) (d : Word) : Statement (.eaVar c d) :=
  of_form 3 rfl rfl (by decide)

theorem eaBx (c : Digit) : Statement (.eaBx c) :=
  of_form 1 rfl rfl (by decide)

theorem eaBxSiD8 (c : Digit) (d : Byte) : Statement (.eaBxSiD8 c d) :=
  of_form 2 rfl rfl (by decide)

theorem eaBxDiD8 (c : Digit) (d : Byte) : Statement (.eaBxDiD8 c d) :=
  of_form 2 rfl rfl (by decide)

theorem eaBpSiD8 (c : Digit) (d : Byte) : Statement (.eaBpSiD8 c d) :=
  of_form 2 rfl rfl (by decide)

theorem eaBpDiD8 (c : Digit) (d : Byte) : Statement (.eaBpDiD8 c d) :=
  of_form 2 rfl rfl (by decide)

theorem eaSiD8 (c : Digit) (d : Byte) : Statement (.eaSiD8 c d) :=
  of_form 2 rfl rfl (by decide)

theorem eaDiD8 (c : Digit) (d : Byte) : Statement (.eaDiD8 c d) :=
  of_form 2 rfl rfl (by decide)

theorem eaBpD8 (c : Digit) (d : Byte) : Statement (.eaBpD8 c d) :=
  of_form 2 rfl rfl (by decide)

theorem eaBxD8 (c : Digit) (d : Byte) : Statement (.eaBxD8 c d) :=
  of_form 2 rfl rfl (by decide)

theorem eaBxSiD16 (c : Digit) (d : Word) : Statement (.eaBxSiD16 c d) :=
  of_form 3 rfl rfl (by decide)

theorem eaBxDiD16 (c : Digit) (d : Word) : Statement (.eaBxDiD16 c d) :=
  of_form 3 rfl rfl (by decide)

theorem eaBpSiD16 (c : Digit) (d : Word) : Statement (.eaBpSiD16 c d) :=
  of_form 3 rfl rfl (by decide)

theorem eaBpDiD16 (c : Digit) (d : Word) : Statement (.eaBpDiD16 c d) :=
  of_form 3 rfl rfl (by decide)

theorem eaSiD16 (c : Digit) (d : Word) : Statement (.eaSiD16 c d) :=
  of_form 3 rfl rfl (by decide)

theorem eaDiD16 (c : Digit) (d : Word) : Statement (.eaDiD16 c d) :=
  of_form 3 rfl rfl (by decide)

theorem eaBpD16 (c : Digit) (d : Word) : Statement (.eaBpD16 c d) :=
  of_form 3 rfl rfl (by decide)

theorem eaBxD16 (c : Digit) (d : Word) : Statement (.eaBxD16 c d) :=
  of_form 3 rfl rfl (by decide)

theorem eaAxAl (c : Digit) : Statement (.eaAxAl c) :=
  of_form 1 rfl rfl (by decide)

theorem eaCxCl (c : Digit) : Statement (.eaCxCl c) :=
  of_form 1 rfl rfl (by decide)

theorem eaDxDl (c : Digit) : Statement (.eaDxDl c) :=
  of_form 1 rfl rfl (by decide)

theorem eaBxBl (c : Digit) : Statement (.eaBxBl c) :=
  of_form 1 rfl rfl (by decide)

theorem eaSpAh (c : Digit) : Statement (.eaSpAh c) :=
  of_form 1 rfl rfl (by decide)

theorem eaBpCh (c : Digit) : Statement (.eaBpCh c) :=
  of_form 1 rfl rfl (by decide)

theorem eaSiDh (c : Digit) : Statement (.eaSiDh c) :=
  of_form 1 rfl rfl (by decide)

theorem eaDiBh (c : Digit) : Statement (.eaDiBh c) :=
  of_form 1 rfl rfl (by decide)

theorem subEbIb (ea : Ea) (ib : Byte) : Statement (.subEbIb ea ib) :=
  of_op (c := .d5) (imm := [ib]) rfl rfl (by simp)

theorem addEwRw (ea : Ea) (r : Reg16) : Statement (.addEwRw ea r) :=
  of_op (op := 0x01) (c := r.digit) (imm := []) (by simp [encode]) rfl (by simp)

theorem movRwEw (r : Reg16) (ea : Ea) : Statement (.movRwEw r ea) :=
  of_op (op := 0x8B) (c := r.digit) (imm := []) (by simp [encode]) rfl (by simp)

theorem movEwRw (ea : Ea) (r : Reg16) : Statement (.movEwRw ea r) :=
  of_op (op := 0x89) (c := r.digit) (imm := []) (by simp [encode]) rfl (by simp)

theorem movRbEb (r : Reg8) (ea : Ea) : Statement (.movRbEb r ea) :=
  of_op (op := 0x8A) (c := r.digit) (imm := []) (by simp [encode]) rfl (by simp)

theorem movEwIw (ea : Ea) (iw : Word) : Statement (.movEwIw ea iw) :=
  of_op (c := .d0) (imm := [loByte iw, hiByte iw]) rfl rfl (by simp)

theorem incEb (ea : Ea) : Statement (.incEb ea) :=
  of_op (op := 0xFE) (c := .d0) (imm := []) (by simp [encode]) rfl (by simp)

theorem incEw (ea : Ea) : Statement (.incEw ea) :=
  of_op (op := 0xFF) (c := .d0) (imm := []) (by simp [encode]) rfl (by simp)

theorem segOverrideES : Statement (.segOverrideES) :=
  of_form 1 rfl rfl (by decide)

theorem segOverrideCS : Statement (.segOverrideCS) :=
  of_form 1 rfl rfl (by decide)

theorem segOverrideSS : Statement (.segOverrideSS) :=
  of_form 1 rfl rfl (by decide)

theorem segOverrideDS : Statement (.segOverrideDS) :=
  of_form 1 rfl rfl (by decide)

end Sys2Proof.Laws.EncodedLength
end

