-- ==== Sys2Proof/Laws/Step.lean ====
section
/-! SUPPORT. What a step can do, said once: the three shapes of an instruction, the stores, the fetch. -/

namespace Sys2Proof.Machine

/-- The one write an instruction makes: a register, a byte or a word of memory off the program (20_memory.md R39, R37). -/
def Wrote (s u : State) : Prop :=
  (∃ r v, u = s.writeRw r v) ∨
  (∃ seg off v, s.hitsProgram seg off 1 = false ∧ u = s.segWrite8 seg off v) ∨
  (∃ seg off v, s.hitsProgram seg off 2 = false ∧ u = s.segWrite16 seg off v)

theorem wrote_writeRb (s : State) (r : Reg8) (v : Byte) : Wrote s (s.writeRb r v) := by
  obtain ⟨w, h⟩ := s.writeRb_eq r v
  exact .inl ⟨_, w, h⟩

theorem wrote_of_writeEA8 {s u : State} {op : Operand} {v : Byte} (h : s.writeEA8 op v = .next u) : Wrote s u := by
  obtain ⟨i, _, rfl⟩ | ⟨off, d, _, hh, rfl⟩ := State.writeEA8_next h
  · exact wrote_writeRb _ _ _
  · exact .inr (.inl ⟨_, _, _, hh, rfl⟩)

theorem wrote_of_writeEA16 {s u : State} {op : Operand} {v : Word} (h : s.writeEA16 op v = .next u) : Wrote s u := by
  obtain ⟨i, _, rfl⟩ | ⟨off, d, _, hh, rfl⟩ := State.writeEA16_next h
  · exact .inl ⟨_, _, rfl⟩
  · exact .inr (.inr ⟨_, _, _, hh, rfl⟩)

/-- The three shapes of a next state of `exec`: an operand kept, an override taken, or one write, perhaps FLAGS, and the end of the
instruction. -/
def ExecShape (i : Instr) (s t : State) : Prop :=
  (∃ op, i.position = .eaByte ∧ t = s.latch op) ∨
  (∃ sr, i = prefixInstr sr ∧ s.ovr = none ∧ t = { s with ovr := some sr, prefixAlone := false }) ∨
  (∃ u u', i.position = .opcodeByte ∧ 2 ≤ i.byteLength ∧ Wrote s u ∧ (u' = u ∨ ∃ x, u' = u.setFlags x) ∧
    t = u'.retire i.byteLength)

theorem State.override_next {s t : State} {sr : SegReg} (h : s.override sr = .next t) :
    s.ovr = none ∧ t = { s with ovr := some sr, prefixAlone := false } := by
  cases ho : s.ovr with
  | none =>
    simp only [State.override, ho, Host.Outcome.next.injEq] at h
    exact ⟨rfl, h.symm⟩
  | some x =>
    simp only [State.override, ho] at h
    cases h

/-- An instruction of the table ends with one write, perhaps FLAGS, and its length added to `ip`. -/
theorem execShape_op {i : Instr} {s t u u' : State} (hp : i.position = .opcodeByte) (hl : 2 ≤ i.byteLength) (hw : Wrote s u)
    (hf : u' = u ∨ ∃ x, u' = u.setFlags x) (ht : t = u'.retire i.byteLength) : ExecShape i s t :=
  .inr (.inr ⟨u, u', hp, hl, hw, hf, ht⟩)

theorem execShape_latch {i : Instr} {s t : State} {op : Operand} (hp : i.position = .eaByte)
    (h : (.next (s.latch op) : Res) = .next t) : ExecShape i s t := by
  simp only [Host.Outcome.next.injEq] at h
  exact .inl ⟨op, hp, h.symm⟩

theorem execShape_override {i : Instr} {s t : State} {sr : SegReg} (hi : i = prefixInstr sr) (h : s.override sr = .next t) :
    ExecShape i s t := .inr (.inl ⟨sr, hi, (State.override_next h).1, (State.override_next h).2⟩)

/-- Everything a next state of `exec` can be. -/
theorem exec_next {i : Instr} {s t : State} (h : exec i s = .next t) : ExecShape i s t := by
  cases i with
  | subEbIb ea ib =>
    obtain ⟨u, hu, ht⟩ := andThen_eq_next h
    simp only [Host.Outcome.next.injEq] at ht
    exact execShape_op rfl (by simp only [Instr.byteLength]; omega) (wrote_of_writeEA8 hu) (.inr ⟨_, rfl⟩) ht.symm
  | addEwRw ea r =>
    obtain ⟨u, hu, ht⟩ := andThen_eq_next h
    simp only [Host.Outcome.next.injEq] at ht
    exact execShape_op rfl (by simp only [Instr.byteLength]; omega) (wrote_of_writeEA16 hu) (.inr ⟨_, rfl⟩) ht.symm
  | movRwEw r ea =>
    simp only [exec, execMovRwEw, Host.Outcome.next.injEq] at h
    exact execShape_op rfl (by simp only [Instr.byteLength]; omega) (.inl ⟨_, _, rfl⟩) (.inl rfl) h.symm
  | movEwRw ea r =>
    obtain ⟨u, hu, ht⟩ := andThen_eq_next h
    simp only [Host.Outcome.next.injEq] at ht
    exact execShape_op rfl (by simp only [Instr.byteLength]; omega) (wrote_of_writeEA16 hu) (.inl rfl) ht.symm
  | movRbEb r ea =>
    simp only [exec, execMovRbEb, Host.Outcome.next.injEq] at h
    exact execShape_op rfl (by simp only [Instr.byteLength]; omega) (wrote_writeRb _ _ _) (.inl rfl) h.symm
  | movEwIw ea iw =>
    obtain ⟨u, hu, ht⟩ := andThen_eq_next h
    simp only [Host.Outcome.next.injEq] at ht
    exact execShape_op rfl (by simp only [Instr.byteLength]; omega) (wrote_of_writeEA16 hu) (.inl rfl) ht.symm
  | incEb ea =>
    obtain ⟨u, hu, ht⟩ := andThen_eq_next h
    simp only [Host.Outcome.next.injEq] at ht
    exact execShape_op rfl (by simp only [Instr.byteLength]; omega) (wrote_of_writeEA8 hu) (.inr ⟨_, rfl⟩) ht.symm
  | incEw ea =>
    obtain ⟨u, hu, ht⟩ := andThen_eq_next h
    simp only [Host.Outcome.next.injEq] at ht
    exact execShape_op rfl (by simp only [Instr.byteLength]; omega) (wrote_of_writeEA16 hu) (.inr ⟨_, rfl⟩) ht.symm
  | segOverrideES => exact execShape_override (sr := .es) rfl h
  | segOverrideCS => exact execShape_override (sr := .cs) rfl h
  | segOverrideSS => exact execShape_override (sr := .ss) rfl h
  | segOverrideDS => exact execShape_override (sr := .ds) rfl h
  | _ => exact execShape_latch rfl h

/-- A row that is a segment override byte is the prefix row of a segment register. -/
theorem isOverride_iff {i : Instr} : i.isOverride = true ↔ ∃ sr, i = prefixInstr sr := by
  constructor
  · intro h
    simp only [Instr.isOverride, decide_eq_true_eq, List.mem_cons, List.not_mem_nil, or_false] at h
    obtain rfl | rfl | rfl | rfl := h
    · exact ⟨.es, rfl⟩
    · exact ⟨.cs, rfl⟩
    · exact ⟨.ss, rfl⟩
    · exact ⟨.ds, rfl⟩
  · rintro ⟨sr, rfl⟩
    cases sr <;> rfl

theorem exec_prefixInstr (sr : SegReg) (s : State) : exec (prefixInstr sr) s = s.override sr := by cases sr <;> rfl

/-- All that a row's next state says of the fetch before it. -/
theorem runRow_next {s t : State} (h : runRow s = .next t) : ∃ i, s.fetch = .ok i ∧ exec i s = .next t := by
  simp only [runRow] at h
  split at h
  · cases h
  · exact ⟨_, ‹_›, h⟩

/-- Everything a step that answers a next state has done: one row run by itself, or an override byte and the instruction after it. -/
theorem step_next {s t : State} (h : step s = .next t) : s.runEnded = false ∧ ∃ i, s.fetch = .ok i ∧
    ((i.isOverride = false ∨ s.prefixAlone = true) ∧ exec i s = .next t ∨
     ∃ sr j, i = prefixInstr sr ∧ s.prefixAlone = false ∧ s.ovr = none ∧ j.isOverride = false ∧
       State.fetch { s with ovr := some sr, prefixAlone := false } = .ok j ∧
       exec j { s with ovr := some sr, prefixAlone := false } = .next t) := by
  simp only [step] at h
  split at h
  · cases h
  · rename_i he
    refine ⟨by simpa using he, ?_⟩
    simp only [runInstr] at h
    split at h
    · cases h
    · rename_i i hi
      refine ⟨i, hi, ?_⟩
      split at h
      · rename_i hc
        simp only [Bool.and_eq_true, Bool.not_eq_true'] at hc
        obtain ⟨sr, rfl⟩ := isOverride_iff.1 hc.1
        obtain ⟨u, hu, ht⟩ := andThen_eq_next h
        rw [exec_prefixInstr] at hu
        obtain ⟨ho, rfl⟩ := State.override_next hu
        obtain ⟨j, hj, hx⟩ := runRow_next ht
        refine .inr ⟨sr, j, rfl, hc.2, ho, ?_, hj, hx⟩
        cases hv : j.isOverride
        · rfl
        · obtain ⟨q, rfl⟩ := isOverride_iff.1 hv
          rw [exec_prefixInstr] at hx
          simp [State.override] at hx
      · rename_i hc
        refine .inl ⟨?_, h⟩
        cases hv : i.isOverride <;> simp_all

/-- All that a fetched row says of the bytes. -/
theorem fetch_ok {s : State} {i : Instr} (h : s.fetch = .ok i) : ∃ rest, decode s.expects s.codeBytes = .ok (i, rest) := by
  simp only [State.fetch] at h
  split at h
  · rename_i j rest hd
    simp only [Except.ok.injEq] at h
    exact ⟨rest, by rw [hd, h]⟩
  · cases h

/-- A write leaves all but the general registers and memory alone. -/
theorem Wrote.frame {s u : State} (h : Wrote s u) :
    u.es = s.es ∧ u.cs = s.cs ∧ u.ss = s.ss ∧ u.ds = s.ds ∧ u.ip = s.ip ∧ u.flags = s.flags ∧ u.ovr = s.ovr ∧
    u.operand = s.operand ∧ u.expects = s.expects ∧ u.prefixAlone = s.prefixAlone ∧ u.progDone = s.progDone ∧ u.progLeft = s.progLeft ∧
    u.freeCount = s.freeCount ∧ u.prefixLen = s.prefixLen := by
  obtain ⟨r, v, rfl⟩ | ⟨seg, off, v, _, rfl⟩ | ⟨seg, off, v, _, rfl⟩ := h <;> simp

/-- A write keeps memory's canonical form. -/
theorem Wrote.memWf {s u : State} (h : Wrote s u) (hm : s.mem.wf = true) : u.mem.wf = true := by
  obtain ⟨r, v, rfl⟩ | ⟨seg, off, v, _, rfl⟩ | ⟨seg, off, v, _, rfl⟩ := h
  · simpa using hm
  · exact State.wf_segWrite8 hm _ _ _
  · exact State.wf_segWrite16 hm _ _ _

end Sys2Proof.Machine
end

