-- ==== Sys2Proof/Tests/Slice0.lean ====
section
/-! SUPPORT. Tests. Expected results come from the spec: its table (30_encoding.md R51), its worked examples and derived vectors
(95_test_vectors.md), its rules; none is the model's own answer. The witnesses meet the hypotheses of the statements for the provers. -/

namespace Sys2Proof.Tests

open Sys2Proof.Machine

/-- A field of the next state, none where there is none. -/
def after {α : Type} (r : Res) (f : State → α) : Option α :=
  match r with
  | .next s => some (f s)
  | .fault _ => none
  | .refused _ => none

/-- Whether an outcome is a given refusal. -/
def refusedAs (r : Res) (why : Refusal) : Bool :=
  match r with
  | .refused x => decide (x = why)
  | .next _ => false
  | .fault _ => false

/-- State E0 of 40_effective_address.md, with some bytes of memory given. -/
def e0 (m : Memory) : State :=
  { State.reset with bx := 0x1234, bp := 0x8000, si := 0x0010, di := 0xFFF0, ds := 0x1000, ss := 0x2000, es := 0x3000, cs := 0x4000,
                     mem := m }

/-- E0 with a program loaded at CS:0. -/
def e0p (bytes : List Byte) : State := (e0 []).loadProgram bytes

/-- The instruction decoded at the start of some bytes, where an opcode byte is expected. -/
def op (bs : List Byte) : Option Instr :=
  match decode .opcodeByte bs with
  | .ok (i, _) => some i
  | .error _ => none

/-- The operand form decoded from some bytes, where an effective address byte is expected. -/
def form (bs : List Byte) : Option Instr :=
  match decode .eaByte bs with
  | .ok (i, _) => some i
  | .error _ => none

/-! ## Well-formedness -/

/-- `[BP]` without a displacement has no encoding (R50), whatever the instruction. -/
theorem test_wf_refuses_bp_without_displacement :
    ([.subEbIb (.sum .bp) 0, .addEwRw (.sum .bp) .ax, .movRwEw .ax (.sum .bp), .movEwRw (.sum .bp) .ax, .movRbEb .al (.sum .bp),
      .movEwIw (.sum .bp) 0, .incEb (.sum .bp), .incEw (.sum .bp)] : List Instr).all (fun i => !i.wf) = true := by decide

theorem test_wf_accepts_bp_with_displacement : (Instr.subEbIb (.sumD8 .bp 0) 1).wf = true := by decide

/-! ## Decoding: every constructor by a word of the spec's table -/

/-- Column 5 of the first eight rows of R51: `28 29 2A 2B 2C 2D 2E 2F`. -/
theorem test_decode_forms_mod0 :
    form [0x28] = some (.eaBxSi .d5) ∧
    form [0x29] = some (.eaBxDi .d5) ∧
    form [0x2A] = some (.eaBpSi .d5) ∧
    form [0x2B] = some (.eaBpDi .d5) ∧
    form [0x2C] = some (.eaSi .d5) ∧
    form [0x2D] = some (.eaDi .d5) ∧
    form [0x2E, 0x34, 0x12] = some (.eaVar .d5 0x1234) ∧
    form [0x2F] = some (.eaBx .d5) := by decide

/-- Column 5 of the `d8` rows: `68` to `6F`. -/
theorem test_decode_forms_mod1 :
    form [0x68, 0x80] = some (.eaBxSiD8 .d5 0x80) ∧
    form [0x69, 0x80] = some (.eaBxDiD8 .d5 0x80) ∧
    form [0x6A, 0x80] = some (.eaBpSiD8 .d5 0x80) ∧
    form [0x6B, 0x80] = some (.eaBpDiD8 .d5 0x80) ∧
    form [0x6C, 0x80] = some (.eaSiD8 .d5 0x80) ∧
    form [0x6D, 0x80] = some (.eaDiD8 .d5 0x80) ∧
    form [0x6E, 0x80] = some (.eaBpD8 .d5 0x80) ∧
    form [0x6F, 0x80] = some (.eaBxD8 .d5 0x80) := by decide

/-- Column 5 of the `d16` rows: `A8` to `AF`, the word low byte first. -/
theorem test_decode_forms_mod2 :
    form [0xA8, 0x38, 0xFF] = some (.eaBxSiD16 .d5 0xFF38) ∧
    form [0xA9, 0x38, 0xFF] = some (.eaBxDiD16 .d5 0xFF38) ∧
    form [0xAA, 0x38, 0xFF] = some (.eaBpSiD16 .d5 0xFF38) ∧
    form [0xAB, 0x38, 0xFF] = some (.eaBpDiD16 .d5 0xFF38) ∧
    form [0xAC, 0x38, 0xFF] = some (.eaSiD16 .d5 0xFF38) ∧
    form [0xAD, 0x38, 0xFF] = some (.eaDiD16 .d5 0xFF38) ∧
    form [0xAE, 0x38, 0xFF] = some (.eaBpD16 .d5 0xFF38) ∧
    form [0xAF, 0x38, 0xFF] = some (.eaBxD16 .d5 0xFF38) := by decide

/-- Column 3 of the register rows: `D8` to `DF`. -/
theorem test_decode_forms_mod3 :
    form [0xD8] = some (.eaAxAl .d3) ∧
    form [0xD9] = some (.eaCxCl .d3) ∧
    form [0xDA] = some (.eaDxDl .d3) ∧
    form [0xDB] = some (.eaBxBl .d3) ∧
    form [0xDC] = some (.eaSpAh .d3) ∧
    form [0xDD] = some (.eaBpCh .d3) ∧
    form [0xDE] = some (.eaSiDh .d3) ∧
    form [0xDF] = some (.eaDiBh .d3) := by decide

/-- Spot values of 95_test_vectors.md S2. -/
theorem test_decode_forms_columns :
    form [0x18] = some (.eaBxSi .d3) ∧
    form [0x7E, 0x00] = some (.eaBpD8 .d7 0) ∧
    form [0x83, 1, 0] = some (.eaBpDiD16 .d0 1) ∧
    form [0xFF] = some (.eaDiBh .d7) := by decide

/-- 95_test_vectors.md S1, S3, V6, V8. -/
theorem test_decode_sub :
    op [0x80, 0x6F, 0x11, 0x64] = some (.subEbIb (.sumD8 .bx 0x11) 100) ∧
    op [0x80, 0x6E, 0x00, 0x01] = some (.subEbIb (.sumD8 .bp 0) 1) ∧
    op [0x80, 0x2E, 0x00, 0x20, 0x64] = some (.subEbIb (.var 0x2000) 100) ∧
    op [0x80, 0xEC, 0x13] = some (.subEbIb (.reg .d4) 0x13) := by decide

/-- The source's three adds (S8). -/
theorem test_decode_add :
    op [0x01, 0xD8] = some (.addEwRw (.reg .d0) .bx) ∧
    op [0x01, 0xEE] = some (.addEwRw (.reg .d6) .bp) ∧
    op [0x01, 0xC4] = some (.addEwRw (.reg .d4) .ax) := by decide

/-- 41_instructions.md R105 to R108, 95_test_vectors.md V8. -/
theorem test_decode_mov :
    op [0x8B, 0x07] = some (.movRwEw .ax (.sum .bx)) ∧
    op [0x8B, 0x4C, 0x11] = some (.movRwEw .cx (.sumD8 .si 17)) ∧
    op [0x89, 0x36, 0x00, 0x01] = some (.movEwRw (.var 0x0100) .si) ∧
    op [0x8A, 0x1E, 0x34, 0x12] = some (.movRbEb .bl (.var 0x1234)) ∧
    op [0xC7, 0x87, 0x00, 0x20, 0x34, 0x12] = some (.movEwIw (.sumD16 .bx 0x2000) 0x1234) := by decide

/-- R109, R110. -/
theorem test_decode_inc :
    op [0xFE, 0x06, 0x00, 0x20] = some (.incEb (.var 0x2000)) ∧
    op [0xFF, 0x46, 0x04] = some (.incEw (.sumD8 .bp 4)) := by decide

/-- R54. -/
theorem test_decode_overrides :
    op [0x26] = some .segOverrideES ∧
    op [0x2E] = some .segOverrideCS ∧
    op [0x36] = some .segOverrideSS ∧
    op [0x3E] = some .segOverrideDS := by decide

/-- 95_test_vectors.md V9; `PUSH ew` is not in the table (R113). -/
theorem test_decode_refusals :
    op [0x80, 0x07, 0x01] = none ∧
    op [0x90] = none ∧
    op [0xF0, 0x80, 0x2F, 0x01] = none ∧
    op [0xFF, 0x36] = none := by decide

/-- Rows of spec/opcode_table.json by their `match`. -/
theorem test_table_rows :
    decodeTableWord 8 0x00 = some (.eaBxSi .d0) ∧
    decodeTableWord 8 0x46 = some (.eaBpD8 .d0 0) ∧
    decodeTableWord 8 0x3E = some .segOverrideDS ∧
    decodeTableWord 16 0x8028 = some (.subEbIb (.sum .bxSi) 0) ∧
    decodeTableWord 16 0xC706 = some (.movEwIw (.var 0) 0) := by decide

/-- The very next step runs the row placed: an operand form, a prefix, an instruction. -/
theorem test_step_runs_placed_rows :
    after (step (State.reset.withFetchWord 8 0x47)) (·.operand) = some (some (.mem 0 .ds)) ∧
    after (step (State.reset.withFetchWord 8 0x2E)) (·.ovr) = some (some .cs) ∧
    after (step (State.reset.withFetchWord 16 0xFEC0)) (·.ax) = some 1 ∧
    after (step (State.reset.withFetchWord 16 0x8028)) (·.ip) = some 3 := by decide

/-! ## Operand forms: 95_test_vectors.md V1, V2 -/

theorem test_forms_of_V1 :
    decodeEA (.sum .bxDi) (e0 []) = .mem 0x1224 .ds ∧ decodeEA (.sum .bpDi) (e0 []) = .mem 0x7FF0 .ss ∧
    decodeEA (.var 0x8000) (e0 []) = .mem 0x8000 .ds ∧ decodeEA (.sumD8 .bp 0xFE) (e0 []) = .mem 0x7FFE .ss ∧
    decodeEA (.sumD8 .bx 0x80) (e0 []) = .mem 0x11B4 .ds ∧ decodeEA (.sumD16 .bpDi 0x1234) (e0 []) = .mem 0x9224 .ss ∧
    decodeEA (.sumD16 .si 0xFF38) (e0 []) = .mem 0xFF48 .ds := by decide

theorem test_form_row_keeps_operand :
    after (exec (.eaBpDiD16 .d0 0x1234) (e0 [])) (·.operand) = some (some (.mem 0x9224 .ss)) ∧
    after (exec (.eaBxSiD8 .d0 0xFE) (e0 [])) (·.operand) = some (some (.mem 0x1242 .ds)) ∧
    after (exec (.eaSpAh .d0) (e0 [])) (·.operand) = some (some (.reg .d4)) := by decide

/-- V2, first row: two carries dropped. -/
theorem test_offset_wraps :
    decodeEA (.sumD16 .bxSi 0xFFFF) { State.reset with bx := 0xFFFF, si := 0xFFFF } = .mem 0xFFFD .ds := by decide

/-! ## Memory: V3, V4 -/

theorem test_phys :
    phys 0x1234 0x0005 = 0x12345 ∧ phys 0xF001 0xFFF0 = 0 ∧ phys 0xFFFF 0x0010 = 0 ∧ phys 0xFFFF 0xFFFF = 0x0FFEF := by decide

theorem test_word_wraps_in_segment : ((e0 []).segWrite16 0x1000 0xFFFF 0x1122).mem = [(0x10000, 0x11), (0x1FFFF, 0x22)] := by decide

theorem test_odd_word : (e0 [(0x10101, 0xAB), (0x10102, 0xEF)]).segRead16 0x1000 0x0101 = 0xEFAB := by decide

theorem test_write_of_zero_removes : memWrite [(5, 1), (7, 2)] 5 0 = [(7, 2)] ∧ memWrite [(5, 1)] 3 9 = [(3, 9), (5, 1)] := by decide

/-! ## Instructions: V5 to V7, P1, P4 -/

/-- The source's instruction on V6's first value. -/
theorem test_sub_memory :
    after (exec (.subEbIb (.sumD8 .bx 17) 100) (e0 [(0x11245, 0x70)])) (fun t => (t.mem, t.ip)) = some ([(0x11245, 0x0C)], 4) := by
  decide

/-- V6: `SUB AH,0x13` from `AX` = 0x1234. -/
theorem test_sub_high_half : after (exec (.subEbIb (.reg .d4) 0x13) { e0 [] with ax := 0x1234 }) (·.ax) = some 0xFF34 := by decide

/-- V7: `ADD AX,AX` with `AX` = 0x8001. -/
theorem test_add_same_register : after (exec (.addEwRw (.reg .d0) .ax) { e0 [] with ax := 0x8001 }) (·.ax) = some 0x0002 := by decide

/-- V7: `ADD [BX],BX`. -/
theorem test_add_memory :
    after (exec (.addEwRw (.sum .bx) .bx) (e0 [(0x11234, 1)])) (fun t => (t.mem, t.bx)) =
      some ([(0x11234, 0x35), (0x11235, 0x12)], 0x1234) := by decide

/-- P4, step 1. -/
theorem test_mov_load : after (exec (.movRwEw .ax (.sumD8 .bxSi 5)) (e0 [(0x11249, 0xCD), (0x1124A, 0xAB)])) (·.ax) = some 0xABCD := by
  decide

/-- P4, step 4. -/
theorem test_mov_store : after (exec (.movEwRw (.var 0x0100) .si) (e0 [])) (·.mem) = some [(0x10100, 0x10)] := by decide

/-- P4, step 5: the address from the old `BX`. -/
theorem test_mov_byte_into_own_base : after (exec (.movRbEb .bl (.sum .bx)) (e0 [(0x11234, 0xCC)])) (·.bx) = some 0x12CC := by decide

/-- R108. -/
theorem test_mov_immediate :
    after (exec (.movEwIw (.var 0x2000) 0x1234) (e0 [])) (fun t => (t.mem, t.ip)) = some ([(0x12000, 0x34), (0x12001, 0x12)], 6) := by
  decide

/-- R109. -/
theorem test_inc_byte : after (exec (.incEb (.var 0x2000)) (e0 [(0x12000, 0x7F)])) (·.mem) = some [(0x12000, 0x80)] := by decide

/-- R110: the operand is in `SS`. -/
theorem test_inc_word_in_stack_segment :
    after (exec (.incEw (.sumD8 .bp 4)) (e0 [(0x28004, 0xFF)])) (·.mem) = some [(0x28005, 0x01)] := by decide

/-- V5, second row: `26 80 2F ib`. -/
theorem test_override_es :
    after (andThen (exec .segOverrideES (e0 [(0x31234, 9)])) (exec (.subEbIb (.sum .bx) 2))) (fun t => (t.mem, t.ip, t.ovr)) =
      some ([(0x31234, 7)], 4, none) := by decide

/-- P2's last instruction, `3E 80 6E 00 01`, with its override byte in one step: location 0x20010 from 0x0F to 0x0E, the run ended. -/
theorem test_prefixed_instruction_is_one_step :
    after (step ({ State.reset with cs := 0x1000, ds := 0x2000, ss := 0x3000, es := 0x4000, bp := 0x0010,
                                    mem := [(0x20010, 0x0F)] }.loadProgram [0x3E, 0x80, 0x6E, 0x00, 0x01]))
      (fun t => (t.readByte 0x20010, t.ip, t.ovr, t.runEnded)) = some (0x0E, 5, none, true) := by decide

/-- R12, R6: one segment register is written. -/
theorem test_write_segment_register :
    ((e0 []).writeSeg .ss 7).ss = 7 ∧ ((e0 []).writeSeg .ss 7).ds = 0x1000 ∧ ((e0 []).writeSeg .es 7).es = 7 ∧
    ((e0 []).writeSeg .cs 7).cs = 7 ∧ ((e0 []).writeSeg .ds 7).ds = 7 := by decide

/-- V9: `26 3E 80 2F 01`. -/
theorem test_second_prefix_refused :
    refusedAs (step (e0p [0x26, 0x3E, 0x80, 0x2F, 0x01])) .multiplePrefixes = true := by decide

/-- V9: `90`, `80 07 01`, and the three bytes `80 6F 11`. -/
theorem test_step_refusals :
    refusedAs (step (e0p [0x90])) .opcodeNotInTable = true ∧ refusedAs (step (e0p [0x80, 0x07, 0x01])) .opcodeNotInTable = true ∧
    refusedAs (step (e0p [0x80, 0x6F, 0x11])) .programEndsInsideInstruction = true ∧
    refusedAs (step (e0p [0x26])) .programEndsInsideInstruction = true := by decide

/-- V9: a `SUB` whose operand is one of the program's own bytes (DS = CS, offset 2 of the program). -/
theorem test_self_modifying_refused :
    refusedAs (step { e0p [0x80, 0x2E, 0x02, 0x00, 0x01] with ds := 0x4000 }) .selfModifyingCode = true := by decide

/-- The assembler's choice (R101): `B[BX+17]`, `[BP]`, `W[BP+4]`, a variable. -/
theorem test_assembler_forms :
    assembleEa (some .bx) 17 = .sumD8 .bx 17 ∧ assembleEa (some .bp) 0 = .sumD8 .bp 0 ∧ assembleEa (some .bp) 4 = .sumD8 .bp 4 ∧
    assembleEa (some .si) (-200) = .sumD16 .si 0xFF38 ∧ assembleEa none 0x2000 = .var 0x2000 := by decide

/-- The table of 93_implementation_defined.md GK7 (CF 0001, PF 0004, AF 0010, ZF 0040, SF 0080, OF 0800). -/
theorem test_gk7_table :
    flagsAfterSub 0 (0x70 : Byte) 0x64 = 0x0014 ∧ flagsAfterSub 0 (0x64 : Byte) 0x64 = 0x0044 ∧
    flagsAfterSub 0 (0x10 : Byte) 0x64 = 0x0095 ∧ flagsAfterSub 0 (0x00 : Byte) 0x01 = 0x0095 ∧
    flagsAfterSub 0 (0x80 : Byte) 0x01 = 0x0810 ∧ flagsAfterSub 0 (0x7F : Byte) 0xFF = 0x0881 ∧
    flagsAfterSub 0 (0x00 : Byte) 0x80 = 0x0881 ∧ flagsAfterSub 0 (0x03 : Byte) 0x05 = 0x0091 := by decide

/-! ## Witnesses: the hypotheses of the statements can be met -/

theorem test_witness_DecodeEncodeRoundTrip : (Instr.subEbIb (.sumD8 .bp 0) 1).wf = true := by decide

theorem test_witness_DecodeOnlyReadsEncodings : decode .opcodeByte [0xFE, 0xC0, 7] = .ok (.incEb (.reg .d0), [7]) := rfl

theorem test_witness_TruncatedEncodingIsTruncated :
    (Instr.movEwIw (.var 0) 1).wf = true ∧ 5 < (encode (.movEwIw (.var 0) 1)).length := by decide

theorem test_witness_OpcodeWithoutRowRefused :
    (0x90 : Byte) ∉ [0x80, 0x01, 0x8B, 0x89, 0x8A, 0xC7, 0xFE, 0xFF] ∧ (0x90 : Byte) ∉ [0x26, 0x2E, 0x36, 0x3E] ∧
    eabColumn 0x07 ≠ .d5 ∧ (0xFF : Byte) ∈ [(0xC7 : Byte), 0xFE, 0xFF] ∧ eabColumn 0x36 ≠ .d0 := by decide

theorem test_witness_RegisterNumbers : 4 ≤ Digit.d4.num ∧ segRegOf .d4 = .error .segColumn4To7 := ⟨by decide, rfl⟩

theorem test_witness_FormRowsAgreeWithDecodeEA : (Ea.sum .bxSi).wf = true ∧ (Ea.reg .d7).wf = true := by decide

theorem test_witness_DefaultSegmentRegister :
    decode .eaByte [0x6E, 0x00, 0x00] = .ok (.eaBpD8 .d5 0, [0x00]) ∧ (0x6E : Byte).toNat / 64 ≠ 3 ∧ (0x6E : Byte).toNat % 8 = 6 ∧
    decode .eaByte [0x2E, 0x00, 0x80] = .ok (.eaVar .d5 0x8000, []) ∧ (0x2E : Byte).toNat / 64 = 0 ∧
    decode .eaByte [0xE8, 0, 0] = .ok (.eaAxAl .d5, [0, 0]) ∧ (0xE8 : Byte).toNat / 64 = 3 :=
  ⟨rfl, by decide, by decide, rfl, by decide, rfl, by decide⟩

theorem test_witness_AddressRegisters :
    (e0 []).bx = ({ e0 [] with ax := 7 } : State).bx ∧ (e0 []).bp = ({ e0 [] with ax := 7 } : State).bp ∧
    (e0 []).si = ({ e0 [] with ax := 7 } : State).si ∧ (e0 []).di = ({ e0 [] with ax := 7 } : State).di := by decide

theorem test_witness_LocationOfSegmentAndOffset : 16 ≤ (0x0010 : Word).toNat ∧ phys (0xFFFF + 1) (0x0010 - 16) = phys 0xFFFF 0x0010 := by
  decide

/-- Also: a store of four bytes that wraps, and one whose last byte alone is the program's. -/
theorem test_witness_DoublewordOperand :
    (e0p [0xFE, 0xC0]).mem.wf = true ∧ (e0p [0xFE, 0xC0]).Storable 4 (.mem 0xFFFE .ds) ∧
    ({ e0p [0xFE, 0xC0] with ds := 0x4000 } : State).inProgram (phys 0x4000 (0xFFFD + BitVec.ofNat 16 3)) = true ∧
    ({ e0p [0xFE, 0xC0] with ds := 0x4000 } : State).inProgram (phys 0x4000 (0xFFFD + BitVec.ofNat 16 2)) = false ∧
    (0x20000 : Loc) ≠ phys 0x1000 0xFFFE := by
  unfold State.Storable
  decide

theorem test_witness_SegmentRegisterFile : SegReg.ss ≠ SegReg.ds := by decide

theorem test_witness_WordByteOrder : (e0 [(0x11234, 9)]).mem.wf = true := by decide

/-- Hypotheses of SubMemoryForm, AddMemoryForm, MovStoresWord, IncMemoryForm (and, without the last two, of the loads), at an
ordinary offset and where a word wraps at offset 0xFFFF. -/
theorem test_witness_memory_forms :
    (e0p [0x80, 0x2F, 0x01]).mem.wf = true ∧ decodeEA (.sum .bx) (e0p [0x80, 0x2F, 0x01]) = .mem 0x1234 .ds ∧
    (e0p [0x80, 0x2F, 0x01]).Storable 1 (.mem 0x1234 .ds) ∧ (e0p [0x80, 0x2F, 0x01]).Storable 2 (.mem 0x1234 .ds) ∧
    decodeEA (.var 0xFFFF) (e0p [0x80, 0x2F, 0x01]) = .mem 0xFFFF .ds ∧
    (e0p [0x80, 0x2F, 0x01]).Storable 1 (.mem 0xFFFF .ds) ∧ (e0p [0x80, 0x2F, 0x01]).Storable 2 (.mem 0xFFFF .ds) := by
  unfold State.Storable
  decide

theorem test_witness_OverrideBytesComplete :
    (e0 []).ovr = none ∧ ({ e0 [] with ovr := some .es } : State).ovr = some .es := by decide

/-- A program whose bytes are seen through DS = CS. -/
def overlaid : State := { e0p [0xFE, 0x06, 0x00, 0x00] with ds := 0x4000 }

/-- A program's first byte, its last, the byte past its end, and a word whose second byte alone is the program's. -/
theorem test_witness_StoresIntoTheProgramRefused :
    overlaid.eaSeg .ds = 0x4000 ∧ decodeEA (.var 0) overlaid = .mem 0 .ds ∧ overlaid.inProgram (phys 0x4000 0) = true ∧
    overlaid.inProgram (phys 0x4000 3) = true ∧ overlaid.inProgram (phys 0x4000 4) = false ∧
    decodeEA (.var 0xFFFF) overlaid = .mem 0xFFFF .ds ∧ overlaid.inProgram (phys 0x4000 0xFFFF) = false ∧
    overlaid.inProgram (phys 0x4000 (0xFFFF + 1)) = true := by decide

/-- A program of one instruction, and one of an override byte and that instruction. -/
def incAx : State := e0p [0xFE, 0xC0]
def dsIncAx : State := e0p [0x3E, 0xFE, 0xC0]

/-- Clause by clause: an instruction; an override byte with the instruction after it; a second override byte. -/
theorem test_witness_StepRunsDecodedInstruction :
    decode incAx.expects incAx.codeBytes = .ok (.incEb (.reg .d0), []) ∧ (Instr.incEb (.reg .d0)).isOverride = false ∧
    decode dsIncAx.expects dsIncAx.codeBytes = .ok (prefixInstr .ds, [0xFE, 0xC0]) ∧ dsIncAx.prefixAlone = false ∧
    dsIncAx.ovr = none ∧
    decode .opcodeByte (State.codeBytes { dsIncAx with ovr := some .ds }) = .ok (.incEb (.reg .d0), []) ∧
    decode .opcodeByte (State.codeBytes { e0p [0x3E, 0x26] with ovr := some .ds }) = .ok (.segOverrideES, []) :=
  ⟨rfl, rfl, rfl, rfl, rfl, rfl, rfl⟩

theorem test_witness_StepRunsEncodedInstruction :
    (Instr.incEb (.reg .d0)).wf = true ∧ incAx.expects = (Instr.incEb (.reg .d0)).position ∧
    (Instr.incEb (.reg .d0)).isOverride = false ∧ incAx.prefixLen + (encode (.incEb (.reg .d0))).length ≤ incAx.progLeft ∧
    encode (.incEb (.reg .d0)) = [incAx.codeByte 0, incAx.codeByte 1] := by decide

/-- For both clauses: no field named here depends on `prefixAlone`. -/
theorem test_witness_PrefixedInstructionRuns :
    dsIncAx.AtBoundary ∧ (Instr.incEb (.reg .d0)).wf = true ∧ (Instr.incEb (.reg .d0)).position = .opcodeByte ∧
    1 + (encode (.incEb (.reg .d0))).length ≤ dsIncAx.progLeft ∧ dsIncAx.codeByte 0 = Config.overrideBytes .ds ∧
    encode (.incEb (.reg .d0)) = [dsIncAx.codeByte 1, dsIncAx.codeByte 2] ∧ dsIncAx.prefixAlone = false ∧
    ({ dsIncAx with prefixAlone := true } : State).AtBoundary :=
  ⟨⟨rfl, rfl, rfl⟩, rfl, rfl, by decide, by decide, by decide, rfl, ⟨rfl, rfl, rfl⟩⟩

/-- Clause by clause; the digits without a row are `80 /0` and `C7 /1`. -/
theorem test_witness_UnknownOpcodeStopsTheStep :
    (e0p [0x90]).runEnded = false ∧ decode (e0p [0x90]).expects (e0p [0x90]).codeBytes = .error .opcodeNotInTable ∧
    decode (e0p [0x3E, 0x90]).expects (e0p [0x3E, 0x90]).codeBytes = .ok (prefixInstr .ds, [0x90]) ∧
    decode .opcodeByte (State.codeBytes { e0p [0x3E, 0x90] with ovr := some .ds }) = .error .opcodeNotInTable ∧
    (e0p [0x90]).codeByte (e0p [0x90]).prefixLen = 0x90 ∧ (e0p [0x80]).codeByte (e0p [0x80]).prefixLen = 0x80 ∧
    (e0p [0x80]).progLeft = (e0p [0x80]).prefixLen + 1 ∧ (e0p [0x80, 0xC0]).prefixLen + 1 < (e0p [0x80, 0xC0]).progLeft ∧
    eabColumn ((e0p [0x80, 0xC0]).codeByte 1) = .d0 ∧ eabColumn ((e0p [0xC7, 0xC8]).codeByte 1) = .d1 :=
  ⟨rfl, rfl, rfl, rfl, by decide, by decide, by decide, by decide, by decide, by decide⟩

/-- The end after the opcode byte, and directly after an override byte. -/
theorem test_witness_TruncatedInstructionStopsTheStep :
    IsInstruction (.incEb (.reg .d0)) ∧ 1 < (encode (.incEb (.reg .d0))).length ∧ (e0p [0xFE]).progLeft = (e0p [0xFE]).prefixLen + 1 ∧
    (encode (.incEb (.reg .d0)))[0]? = some ((e0p [0xFE]).codeByte 0) ∧ (e0p [0x3E]).progLeft = 1 + 0 ∧
    (e0p [0x3E]).codeByte 0 = Config.overrideBytes .ds := by
  unfold IsInstruction
  decide

/-- Two instructions, the second with an override byte. -/
theorem test_witness_RunOfKInstructionsTakesKSteps :
    (e0p [0xFE, 0xC0, 0x3E, 0xFE, 0xC0]).AtBoundary ∧
    programBytes [(none, .incEb (.reg .d0)), (some .ds, .incEb (.reg .d0))] = [0xFE, 0xC0, 0x3E, 0xFE, 0xC0] ∧
    (List.range 5).map (e0p [0xFE, 0xC0, 0x3E, 0xFE, 0xC0]).codeByte = [0xFE, 0xC0, 0x3E, 0xFE, 0xC0] ∧
    (e0p [0xFE, 0xC0, 0x3E, 0xFE, 0xC0]).progLeft = 5 ∧ (e0p [0xFE, 0xC0, 0x3E, 0xFE, 0xC0]).prefixAlone = false ∧
    IsInstruction (.incEb (.reg .d0)) :=
  ⟨⟨rfl, rfl, rfl⟩, rfl, by decide, rfl, rfl, ⟨rfl, rfl, rfl⟩⟩

theorem test_witness_RunEndsAtProgramEnd : State.reset.progLeft = 0 ∧ State.reset.ovr = none ∧ State.reset.expects = .opcodeByte := by
  decide

/-- A state with the invariant from which a step answers a next state, without and with an override read; also the witness of
StepKeepsTheProgram. -/
theorem test_witness_StepKeepsInvariant :
    (e0p [0x3E, 0xFE, 0xC0]).Inv ∧ (after (step (e0p [0x3E, 0xFE, 0xC0])) (·.ip)) = some 3 ∧
    State.Inv { e0p [0x3E, 0xFE, 0xC0] with ovr := some .ds } ∧
    (after (step { e0p [0x3E, 0xFE, 0xC0] with ovr := some .ds }) (·.ip)) = some 3 := by
  refine ⟨⟨by decide, by decide, fun _ => rfl, fun sr h => by cases h⟩, by decide, ⟨by decide, by decide, fun _ => rfl, ?_⟩, by decide⟩
  intro sr h
  cases h
  exact ⟨by decide, by decide⟩

/-- Witness of SegmentRegistersKept, InstructionsFallThrough and OnlyArithmeticChangesFlags: `exec` answers a next state for a form,
an override byte, a move. -/
theorem test_witness_exec_answers_next :
    (after (exec (.eaBx .d0) (e0 [])) (·.operand)).isSome = true ∧ (after (exec .segOverrideSS (e0 [])) (·.ovr)).isSome = true ∧
    (after (exec (.movRwEw .bx (.sum .bx)) (e0 [])) (·.bx)).isSome = true ∧
    (Instr.movRwEw .bx (.sum .bx)).position = .opcodeByte ∧ 2 ≤ (Instr.movRwEw .bx (.sum .bx)).byteLength := by decide

/-- A state whose four segment registers are equal. -/
def flat : State := { e0 [] with cs := 1, ds := 1, es := 1, ss := 1 }

theorem test_witness_EqualSegmentsMakeOverridesIdle :
    flat.cs = flat.ds ∧ flat.ds = flat.es ∧ flat.es = flat.ss ∧ (Instr.incEw (.sum .bx)).position = .opcodeByte := by decide

/-- Also of EveryRunEnds, whose one hypothesis is the first conjunct. -/
theorem test_witness_EveryStepUsesUpWork :
    (e0p [0xFE, 0xC0]).expects = .opcodeByte ∧ (after (step (e0p [0xFE, 0xC0])) (·.work)) = some 1 ∧ (e0p [0xFE, 0xC0]).work = 5 := by
  decide

theorem test_witness_LoadedProgramStandsAtIp :
    (e0 []).mem.wf = true ∧ [(0xFE : Byte), 0xC0].length ≤ 65536 ∧ [(0xFE : Byte), 0xC0][1]? = some 0xC0 := by decide

end Sys2Proof.Tests
end

section
/-! The segment register file (00_scope.md R6, 10_state.md R12): the rules for reading a written register stand with the laws of the
state; here is the frame, as one equation of states. -/

namespace Sys2Proof.Machine

/-- The frame of `s[i] <- v`: with the four segment registers put back, the state is the one before the write. -/
theorem State.writeSeg_restore (s : State) (r : SegReg) (v : Word) :
    { s.writeSeg r v with es := s.es, cs := s.cs, ss := s.ss, ds := s.ds } = s := by
  cases r <;> rfl

/-- Settles O57: the numbering is `readSeg`'s own, the reads after the write are the laws of `writeSeg`, and the rest of the state is
its frame. -/
theorem segmentRegisterFile : Obligations.SegmentRegisterFile := by
  intro s r v
  have same : (s.writeSeg r v).readSeg r = v := s.readSeg_writeSeg_same r v
  have others : ∀ q, q ≠ r → (s.writeSeg r v).readSeg q = s.readSeg q := fun _ hq => s.readSeg_writeSeg_other v hq
  exact ⟨rfl, rfl, rfl, rfl, same, others, s.writeSeg_restore r v⟩

end Sys2Proof.Machine
end

section
/-! The decoder against the encoder (30_encoding.md R40, R41, R44 to R48, R51, R53, R54): what each piece of the decoder answers on
the bytes the encoder gives, and which bytes it has read where it answers. -/

namespace Sys2Proof

/-! ## Columns and the effective address byte -/

@[simp] theorem Digit.ofNum_num (d : Digit) : Digit.ofNum d.num = d := by cases d <;> rfl

theorem Digit.num_lt (d : Digit) : d.num < 8 := by cases d <;> decide

theorem Digit.num_ofNum {n : Nat} (h : n < 8) : (Digit.ofNum n).num = n := by
  have hall : ∀ m : Fin 8, (Digit.ofNum m.val).num = m.val := by decide
  exact hall ⟨n, h⟩

@[simp] theorem Reg16.digit_rw (r : Reg16) : r.digit.rw = r := by cases r <;> rfl

@[simp] theorem Reg8.digit_rb (r : Reg8) : r.digit.rb = r := by cases r <;> rfl

@[simp] theorem Digit.rw_digit (d : Digit) : d.rw.digit = d := by cases d <;> rfl

@[simp] theorem Digit.rb_digit (d : Digit) : d.rb.digit = d := by cases d <;> rfl

@[simp] theorem RegSum.digit_regSum (r : RegSum) : r.digit.regSum = r := by cases r <;> rfl

@[simp] theorem Digit.regSum_digit (d : Digit) : d.regSum.digit = d := by cases d <;> rfl

theorem eabOf_toNat {m : Nat} (hm : m < 4) (c rm : Digit) : (eabOf m c rm).toNat = m * 64 + c.num * 8 + rm.num := by
  have hc := c.num_lt
  have hr := rm.num_lt
  simp only [eabOf, BitVec.toNat_ofNat]
  omega

theorem eabMod_eabOf {m : Nat} (hm : m < 4) (c rm : Digit) : eabMod (eabOf m c rm) = m := by
  have hc := c.num_lt
  have hr := rm.num_lt
  simp only [eabMod, eabOf_toNat hm]
  omega

theorem eabColumn_eabOf {m : Nat} (hm : m < 4) (c rm : Digit) : eabColumn (eabOf m c rm) = c := by
  have hc := c.num_lt
  have hr := rm.num_lt
  have h : (m * 64 + c.num * 8 + rm.num) / 8 % 8 = c.num := by omega
  simp only [eabColumn, eabOf_toNat hm, h, Digit.ofNum_num]

theorem eabRm_eabOf {m : Nat} (hm : m < 4) (c rm : Digit) : eabRm (eabOf m c rm) = rm := by
  have hr := rm.num_lt
  have h : (m * 64 + c.num * 8 + rm.num) % 8 = rm.num := by omega
  simp only [eabRm, eabOf_toNat hm, h, Digit.ofNum_num]

theorem eabMod_lt (b : Byte) : eabMod b < 4 := by
  have := b.isLt
  simp only [eabMod]
  omega

/-- The three fields of an effective address byte are all of it (R41). -/
theorem eabOf_fields (b : Byte) : eabOf (eabMod b) (eabColumn b) (eabRm b) = b := by
  apply BitVec.eq_of_toNat_eq
  rw [eabOf_toNat (eabMod_lt b), eabColumn, eabRm, Digit.num_ofNum (Nat.mod_lt _ (by decide)),
    Digit.num_ofNum (Nat.mod_lt _ (by decide)), eabMod]
  omega

/-! ## Reading bytes -/

@[simp] theorem withByte_cons {α : Type} (b : Byte) (bs : List Byte) (k : Byte → List Byte → Decoded α) :
    withByte (b :: bs) k = k b bs := rfl

@[simp] theorem withWord_lo_hi {α : Type} (w : Word) (bs : List Byte) (k : Word → List Byte → Decoded α) :
    withWord (loByte w :: hiByte w :: bs) k = k w bs := by
  simp [withWord, Machine.wordOf_lo_hi]

theorem withByte_ok {α : Type} {bs : List Byte} {k : Byte → List Byte → Decoded α} {x : α × List Byte}
    (h : withByte bs k = .ok x) : ∃ b bs', bs = b :: bs' ∧ k b bs' = .ok x := by
  cases bs with
  | nil => cases h
  | cons b bs => exact ⟨b, bs, rfl, h⟩

theorem withWord_ok {α : Type} {bs : List Byte} {k : Word → List Byte → Decoded α} {x : α × List Byte}
    (h : withWord bs k = .ok x) : ∃ w bs', bs = loByte w :: hiByte w :: bs' ∧ k w bs' = .ok x := by
  obtain ⟨b0, bs0, rfl, h0⟩ := withByte_ok h
  obtain ⟨b1, bs1, rfl, h1⟩ := withByte_ok h0
  exact ⟨wordOf b0 b1, bs1, by simp, h1⟩

/-! ## The operand (R41, R44, R51) -/

/-- An operand's bytes are an effective address byte that holds the column, and the displacement that byte calls for. -/
theorem encodeEa_read {ea : Ea} (h : ea.wf = true) (c : Digit) : ∃ eab disp, encodeEa c ea = eab :: disp ∧ eabColumn eab = c ∧
    ∀ {α : Type} (bs : List Byte) (k : Ea → List Byte → Decoded α), withDisp eab (disp ++ bs) k = k ea bs := by
  have fields {m : Nat} (hm : m < 4) (rm : Digit) := And.intro (eabMod_eabOf hm c rm) (eabRm_eabOf hm c rm)
  cases ea with
  | sum r =>
    refine ⟨_, [], rfl, eabColumn_eabOf (by decide) c _, fun bs k => ?_⟩
    obtain ⟨hm, hr⟩ := fields (m := 0) (by decide) r.digit
    simp only [withDisp, hm, hr, RegSum.digit_regSum]
    cases r with
    | bp => exact absurd h (by decide)
    | _ => rfl
  | var d =>
    refine ⟨_, [loByte d, hiByte d], rfl, eabColumn_eabOf (by decide) c _, fun bs k => ?_⟩
    obtain ⟨hm, hr⟩ := fields (m := 0) (by decide) .d6
    simp [withDisp, hm, hr, Digit.regSum]
  | sumD8 r d =>
    refine ⟨_, [d], rfl, eabColumn_eabOf (by decide) c _, fun bs k => ?_⟩
    obtain ⟨hm, hr⟩ := fields (m := 1) (by decide) r.digit
    simp [withDisp, hm, hr]
  | sumD16 r d =>
    refine ⟨_, [loByte d, hiByte d], rfl, eabColumn_eabOf (by decide) c _, fun bs k => ?_⟩
    obtain ⟨hm, hr⟩ := fields (m := 2) (by decide) r.digit
    simp [withDisp, hm, hr]
  | reg i =>
    refine ⟨_, [], rfl, eabColumn_eabOf (by decide) c _, fun bs k => ?_⟩
    obtain ⟨hm, hr⟩ := fields (m := 3) (by decide) i
    simp [withDisp, hm, hr]

/-- Where the operand is read, the bytes were its encoding with the byte's column. -/
theorem withDisp_ok {α : Type} {eab : Byte} {bs : List Byte} {k : Ea → List Byte → Decoded α} {x : α × List Byte}
    (h : withDisp eab bs k = .ok x) :
    ∃ ea bs', ea.wf = true ∧ eab :: bs = encodeEa (eabColumn eab) ea ++ bs' ∧ k ea bs' = .ok x := by
  have he := eabOf_fields eab
  have hlt := eabMod_lt eab
  unfold withDisp at h
  split at h
  · rename_i hm
    rw [hm] at he
    split at h
    · rename_i hr
      obtain ⟨w, bs', rfl, hk⟩ := withWord_ok h
      have hd : eabRm eab = .d6 := by rw [← (eabRm eab).regSum_digit, hr]; rfl
      rw [hd] at he
      exact ⟨.var w, bs', rfl, by simp [encodeEa, he], hk⟩
    · rename_i hr
      exact ⟨.sum (eabRm eab).regSum, bs, by simpa [Ea.wf] using hr, by simp [encodeEa, he], h⟩
  · rename_i hm
    rw [hm] at he
    obtain ⟨d, bs', rfl, hk⟩ := withByte_ok h
    exact ⟨.sumD8 (eabRm eab).regSum d, bs', rfl, by simp [encodeEa, he], hk⟩
  · rename_i hm
    rw [hm] at he
    obtain ⟨w, bs', rfl, hk⟩ := withWord_ok h
    exact ⟨.sumD16 (eabRm eab).regSum w, bs', rfl, by simp [encodeEa, he], hk⟩
  · rename_i h0 h1 h2
    simp only [imp_false] at h0 h1 h2
    have hm : eabMod eab = 3 := by omega
    rw [hm] at he
    exact ⟨.reg (eabRm eab), bs, rfl, by simp [encodeEa, he], h⟩

/-! ## Operand-form rows (R51, R52) -/

/-- An operand with an encoding and a column are what its form row stands for. -/
theorem eaForm?_ofEa (c : Digit) {ea : Ea} (h : ea.wf = true) : (Instr.ofEa c ea).eaForm? = some (c, ea) := by
  cases ea with
  | sum r => cases r with
    | bp => exact absurd h (by decide)
    | _ => rfl
  | var d => rfl
  | sumD8 r d => cases r <;> rfl
  | sumD16 r d => cases r <;> rfl
  | reg i => cases i <;> rfl

/-- Every form row is the row of the column and operand it stands for. -/
theorem eaForm?_eq_some {i : Instr} {c : Digit} {ea : Ea} (h : i.eaForm? = some (c, ea)) :
    ea.wf = true ∧ i = Instr.ofEa c ea ∧ encode i = encodeEa c ea := by
  cases i <;> cases h <;> exact ⟨rfl, rfl, rfl⟩

theorem position_eq_eaByte_iff {i : Instr} : i.position = .eaByte ↔ ∃ c ea, i.eaForm? = some (c, ea) := by
  unfold Instr.position
  cases i.eaForm? with
  | none => simp
  | some x => simpa using ⟨x.1, x.2, rfl⟩

theorem wf_of_eaForm? {i : Instr} {c : Digit} {ea : Ea} (h : i.eaForm? = some (c, ea)) : i.wf = true := by
  cases i <;> cases h <;> rfl

/-- `decodeForm` reads back the bytes of an operand, with any bytes after them. -/
theorem decodeForm_encodeEa (c : Digit) {ea : Ea} (h : ea.wf = true) (rest : List Byte) :
    decodeForm (encodeEa c ea ++ rest) = .ok (Instr.ofEa c ea, rest) := by
  obtain ⟨eab, disp, he, hc, hd⟩ := encodeEa_read h c
  rw [he, decodeForm, List.cons_append, withByte_cons, hd, hc]

theorem decodeForm_ok {bs rest : List Byte} {i : Instr} (h : decodeForm bs = .ok (i, rest)) :
    i.wf = true ∧ i.position = .eaByte ∧ bs = encode i ++ rest := by
  obtain ⟨eab, bs', rfl, hd⟩ := withByte_ok h
  obtain ⟨ea, bs'', hw, he, hi⟩ := withDisp_ok hd
  cases hi
  have hf := eaForm?_ofEa (eabColumn eab) hw
  obtain ⟨_, _, hb⟩ := eaForm?_eq_some hf
  exact ⟨wf_of_eaForm? hf, position_eq_eaByte_iff.2 ⟨_, _, hf⟩, by rw [he, hb]⟩

/-! ## Instruction rows (R47, R53) -/

/-- A row of `instr_table`, found for an opcode byte and a column, builds an instruction whose bytes start with that opcode byte and
an operand in that column. -/
theorem build_ok {op : Byte} {c : Digit} {row : OpRow} {ea : Ea} {bs rest : List Byte} {i : Instr} (hr : findRow op c = some row)
    (hw : ea.wf = true) (h : row.kind.build c ea bs = .ok (i, rest)) :
    i.wf = true ∧ i.position = .opcodeByte ∧ op :: encodeEa c ea ++ bs = encode i ++ rest := by
  have hm := List.mem_of_find?_eq_some hr
  have ha := List.find?_some hr
  simp only [OpRow.admits, Bool.and_eq_true, Bool.or_eq_true, decide_eq_true_eq] at ha
  obtain ⟨rfl, hc⟩ := ha
  simp only [instrTable, List.mem_cons, List.not_mem_nil, or_false] at hm
  obtain rfl | rfl | rfl | rfl | rfl | rfl | rfl | rfl := hm
  · obtain ⟨ib, bs', rfl, hi⟩ := withByte_ok h
    cases hi
    obtain hc | hc := hc <;> cases hc
    exact ⟨hw, rfl, by simp [encode]⟩
  · cases h
    exact ⟨hw, rfl, by simp [encode]⟩
  · cases h
    exact ⟨hw, rfl, by simp [encode]⟩
  · cases h
    exact ⟨hw, rfl, by simp [encode]⟩
  · cases h
    exact ⟨hw, rfl, by simp [encode]⟩
  · obtain ⟨iw, bs', rfl, hi⟩ := withWord_ok (k := fun iw bs => .ok (Instr.movEwIw ea iw, bs)) h
    cases hi
    obtain hc | hc := hc <;> cases hc
    exact ⟨hw, rfl, by simp [encode]⟩
  · cases h
    obtain hc | hc := hc <;> cases hc
    exact ⟨hw, rfl, by simp [encode]⟩
  · cases h
    obtain hc | hc := hc <;> cases hc
    exact ⟨hw, rfl, by simp [encode]⟩

theorem decodeOp_ok {op : Byte} {bs rest : List Byte} {i : Instr} (h : decodeOp op bs = .ok (i, rest)) :
    i.wf = true ∧ i.position = .opcodeByte ∧ op :: bs = encode i ++ rest := by
  unfold decodeOp at h
  split at h
  · obtain ⟨eab, bs', rfl, hf⟩ := withByte_ok h
    split at hf
    · cases hf
    · rename_i row hr
      obtain ⟨ea, bs'', hw, he, hi⟩ := withDisp_ok hf
      rw [he]
      exact build_ok hr hw hi
  · cases h

/-! ## Segment override bytes (R54) -/

@[simp] theorem overrideOf_overrideBytes (sr : SegReg) : overrideOf (Config.overrideBytes sr) = some sr := by cases sr <;> rfl

theorem overrideOf_eq_some {b : Byte} {sr : SegReg} (h : overrideOf b = some sr) : b = Config.overrideBytes sr := by
  unfold overrideOf at h
  split at h
  · cases h; assumption
  · split at h
    · cases h; assumption
    · split at h
      · cases h; assumption
      · split at h
        · cases h; assumption
        · cases h

@[simp] theorem encode_prefixInstr (sr : SegReg) : encode (prefixInstr sr) = [Config.overrideBytes sr] := by cases sr <;> rfl

@[simp] theorem prefixInstr_wf (sr : SegReg) : (prefixInstr sr).wf = true := by cases sr <;> rfl

@[simp] theorem prefixInstr_position (sr : SegReg) : (prefixInstr sr).position = .opcodeByte := by cases sr <;> rfl

@[simp] theorem prefixInstr_isOverride (sr : SegReg) : (prefixInstr sr).isOverride = true := by cases sr <;> rfl

@[simp] theorem prefixInstr_byteLength (sr : SegReg) : (prefixInstr sr).byteLength = 1 := by cases sr <;> rfl

@[simp] theorem decodeOpcode_override (sr : SegReg) (bs : List Byte) :
    decodeOpcode (Config.overrideBytes sr :: bs) = .ok (prefixInstr sr, bs) := by
  simp [decodeOpcode]

/-! ## The decoder -/

/-- Opcode byte, operand and immediate (R40) are read as the row of `instr_table` builds the instruction from them. -/
theorem decodeOpcode_op {op : Byte} {c : Digit} {row : OpRow} {ea : Ea} {imm rest : List Byte} {i : Instr}
    (hr : findRow op c = some row) (ho : overrideOf op = none) (hk : opcodeKnown op = true) (h : ea.wf = true)
    (hb : row.kind.build c ea (imm ++ rest) = .ok (i, rest)) :
    decodeOpcode ((op :: encodeEa c ea ++ imm) ++ rest) = .ok (i, rest) := by
  obtain ⟨eab, disp, he, hc, hd⟩ := encodeEa_read h c
  simp only [decodeOpcode, decodeOp, he, List.cons_append, List.append_assoc, withByte_cons, ho, hk, if_true, hc, hr, hd, hb]

/-- The decoder reads back the bytes of every row that has an encoding, with any bytes after them. -/
theorem decode_encode {i : Instr} (h : i.wf = true) (rest : List Byte) : decode i.position (encode i ++ rest) = .ok (i, rest) := by
  cases hp : i.position with
  | eaByte =>
    obtain ⟨c, ea, hf⟩ := position_eq_eaByte_iff.1 hp
    obtain ⟨hw, hi, he⟩ := eaForm?_eq_some hf
    rw [he, hi]
    exact decodeForm_encodeEa c hw rest
  | opcodeByte =>
    simp only [decode]
    cases i with
    | subEbIb ea ib =>
      simpa [encode] using decodeOpcode_op (row := ⟨0x80, some .d5, .subEbIb⟩) (imm := [ib]) rfl rfl rfl h (by simp [OpKind.build])
    | addEwRw ea r =>
      simpa [encode] using decodeOpcode_op (row := ⟨0x01, none, .addEwRw⟩) (imm := []) rfl rfl rfl h (by simp [OpKind.build])
    | movRwEw r ea =>
      simpa [encode] using decodeOpcode_op (row := ⟨0x8B, none, .movRwEw⟩) (imm := []) rfl rfl rfl h (by simp [OpKind.build])
    | movEwRw ea r =>
      simpa [encode] using decodeOpcode_op (row := ⟨0x89, none, .movEwRw⟩) (imm := []) rfl rfl rfl h (by simp [OpKind.build])
    | movRbEb r ea =>
      simpa [encode] using decodeOpcode_op (row := ⟨0x8A, none, .movRbEb⟩) (imm := []) rfl rfl rfl h (by simp [OpKind.build])
    | movEwIw ea iw =>
      simpa [encode] using decodeOpcode_op (row := ⟨0xC7, some .d0, .movEwIw⟩) (imm := [loByte iw, hiByte iw]) rfl rfl rfl h
        (by simp [OpKind.build])
    | incEb ea =>
      simpa [encode] using decodeOpcode_op (row := ⟨0xFE, some .d0, .incEb⟩) (imm := []) rfl rfl rfl h (by simp [OpKind.build])
    | incEw ea =>
      simpa [encode] using decodeOpcode_op (row := ⟨0xFF, some .d0, .incEw⟩) (imm := []) rfl rfl rfl h (by simp [OpKind.build])
    | segOverrideES => exact decodeOpcode_override .es rest
    | segOverrideCS => exact decodeOpcode_override .cs rest
    | segOverrideSS => exact decodeOpcode_override .ss rest
    | segOverrideDS => exact decodeOpcode_override .ds rest
    | _ => cases hp

/-- Where the decoder answers a row, it stood where that row is read and the bytes were the row's own. -/
theorem decode_ok {p : Position} {bs rest : List Byte} {i : Instr} (h : decode p bs = .ok (i, rest)) :
    i.wf = true ∧ i.position = p ∧ bs = encode i ++ rest := by
  cases p with
  | eaByte => exact decodeForm_ok h
  | opcodeByte =>
    obtain ⟨b, bs', rfl, hb⟩ := withByte_ok h
    split at hb
    · rename_i sr hs
      cases hb
      exact ⟨prefixInstr_wf sr, prefixInstr_position sr, by simp [overrideOf_eq_some hs]⟩
    · exact decodeOp_ok hb

/-! ## Lengths (R48) -/

/-- The bytes of a row are as many as the length rule says, and no more than the longest instruction has. -/
theorem encode_length (i : Instr) : (encode i).length = i.byteLength ∧ 1 ≤ i.byteLength ∧ i.byteLength ≤ 6 := by
  cases i with
  | subEbIb ea ib => exact Laws.EncodedLength.subEbIb ea ib
  | addEwRw ea r => exact Laws.EncodedLength.addEwRw ea r
  | movRwEw r ea => exact Laws.EncodedLength.movRwEw r ea
  | movEwRw ea r => exact Laws.EncodedLength.movEwRw ea r
  | movRbEb r ea => exact Laws.EncodedLength.movRbEb r ea
  | movEwIw ea iw => exact Laws.EncodedLength.movEwIw ea iw
  | incEb ea => exact Laws.EncodedLength.incEb ea
  | incEw ea => exact Laws.EncodedLength.incEw ea
  | _ => exact ⟨rfl, by simp [Instr.byteLength]⟩

end Sys2Proof
end

section
/-! The registers (10_state.md R7 to R10, R12, R20): their numbers, the halves, the registers an offset reads, and the state after
reset. -/

namespace Sys2Proof.Machine

/-- Settles O8: the rows of numbers are computed, the inverse and the refused columns hold digit by digit. -/
theorem registerNumbers : Obligations.RegisterNumbers := by
  refine ⟨rfl, rfl, fun d => ⟨d.rw_digit, d.rb_digit⟩, rfl, rfl, rfl, rfl, fun d hd => ?_⟩
  cases d with
  | d4 | d5 | d6 | d7 => rfl
  | d0 | d1 | d2 | d3 => exact absurd hd (by decide)

/-- An 8-bit register is told by its 16-bit register and which half of it it is (R9). -/
theorem reg8_eq_of_half {q r : Reg8} (hw : regWhole q = regWhole r) (hh : regIsHigh q = regIsHigh r) : q = r := by
  cases q <;> cases r <;> simp_all [regWhole, regIsHigh]

@[simp] theorem State.readRb_writeRb_same (s : State) (r : Reg8) (v : Byte) : (s.writeRb r v).readRb r = v := by
  cases hr : regIsHigh r <;> simp [State.readRb, State.writeRb, hr]

/-- Writing one half leaves the other half, and both halves of the other registers (R9). -/
theorem State.readRb_writeRb_other (s : State) {r q : Reg8} (v : Byte) (h : q ≠ r) : (s.writeRb r v).readRb q = s.readRb q := by
  by_cases hw : regWhole q = regWhole r
  · have hh : regIsHigh q ≠ regIsHigh r := fun hh => h (reg8_eq_of_half hw hh)
    cases hr : regIsHigh r <;> simp_all [State.readRb, State.writeRb]
  · obtain ⟨w, he⟩ := s.writeRb_eq r v
    simp only [State.readRb, he, State.readRw_writeRw_other s w hw]

theorem State.regsKeptBut_writeRb (s : State) (r : Reg8) (v : Byte) : s.RegsKeptBut (s.writeRb r v) (regWhole r) := by
  obtain ⟨w, he⟩ := s.writeRb_eq r v
  exact fun q hq => he ▸ s.readRw_writeRw_other w hq

/-- Settles O22: the halves are what `readRb` reads, and the write is known by the laws above. -/
theorem byteRegistersAreHalves : Obligations.ByteRegistersAreHalves := fun s r v =>
  ⟨rfl, rfl, rfl, rfl, rfl, rfl, rfl, rfl, s.readRb_writeRb_same r v, fun _ hq => s.readRb_writeRb_other v hq,
    s.regsKeptBut_writeRb r v⟩

theorem State.sumValue_congr {s t : State} (hbx : s.bx = t.bx) (hbp : s.bp = t.bp) (hsi : s.si = t.si) (hdi : s.di = t.di)
    (r : RegSum) : s.sumValue r = t.sumValue r := by
  cases r <;> simp only [State.sumValue, hbx, hbp, hsi, hdi]

/-- Settles O20: every form of an operand but the variable and the register holds a register sum, and a sum adds no other register. -/
theorem addressRegisters : Obligations.AddressRegisters := by
  intro ea s t hbx hbp hsi hdi
  have hsum := State.sumValue_congr hbx hbp hsi hdi
  cases ea with
  | sum r => simp only [decodeEA, hsum]
  | sumD8 r d => simp only [decodeEA, hsum]
  | sumD16 r d => simp only [decodeEA, hsum]
  | var d => rfl
  | reg i => rfl

/-- Settles O26: each field is computed. -/
theorem resetState : Obligations.ResetState := by
  have hregs : ∀ r, State.reset.readRw r = 0 := fun r => by cases r <;> rfl
  exact ⟨rfl, ⟨rfl, rfl, rfl⟩, rfl, rfl, rfl, rfl, rfl, rfl, hregs, rfl, rfl⟩

/-- Settles O45: memory lists nothing, no program is loaded and the decoder is empty. -/
theorem invariantAtReset : Obligations.InvariantAtReset where
  memWf := rfl
  programFits := by decide
  noOperand _ := rfl
  overrideRead _ h := by cases h

end Sys2Proof.Machine
end

section
/-! The flag functions of 93_implementation_defined.md GK7: which bits the six flags take, and what is left of the old FLAGS. -/

namespace Sys2Proof.Machine

/-! ## The six flags as bits -/

theorem packFlags_other_bits (cf pf af zf sf of : Bool) : packFlags cf pf af zf sf of &&& ~~~flagsMask = 0#16 := by
  revert cf pf af zf sf of
  decide

theorem packFlags_cf (cf pf af zf sf of : Bool) : packFlags cf pf af zf sf of &&& 0x0001 = if cf then 0x0001 else 0 := by
  revert cf pf af zf sf of
  decide

theorem packFlags_zf (cf pf af zf sf of : Bool) : packFlags cf pf af zf sf of &&& 0x0040 = if zf then 0x0040 else 0 := by
  revert cf pf af zf sf of
  decide

/-- Bits put beside what is left of the old FLAGS outside the mask leave it alone there. -/
theorem outside_mask {old new : Word} (h : new &&& ~~~flagsMask = 0#16) :
    (old &&& ~~~flagsMask ||| new) &&& ~~~flagsMask = old &&& ~~~flagsMask := by
  rw [BitVec.and_or_distrib_right, BitVec.and_assoc, BitVec.and_self, h, BitVec.or_zero]

/-- A flag bit is read from the new bits alone. -/
theorem inside_mask {old new m : Word} (h : ~~~flagsMask &&& m = 0#16) : (old &&& ~~~flagsMask ||| new) &&& m = new &&& m := by
  rw [BitVec.and_or_distrib_right, BitVec.and_assoc, h, BitVec.and_zero, BitVec.zero_or]

/-! ## The three functions -/

theorem flagsAfterSub_other_bits {w : Nat} (old : Word) (a b : BitVec w) :
    flagsAfterSub old a b &&& ~~~flagsMask = old &&& ~~~flagsMask := outside_mask (packFlags_other_bits ..)

theorem flagsAfterAdd_other_bits {w : Nat} (old : Word) (a b : BitVec w) :
    flagsAfterAdd old a b &&& ~~~flagsMask = old &&& ~~~flagsMask := outside_mask (packFlags_other_bits ..)

theorem flagsAfterInc_other_bits {w : Nat} (old : Word) (a : BitVec w) :
    flagsAfterInc old a &&& ~~~flagsMask = old &&& ~~~flagsMask := by
  have hcf : (~~~0x0001 : Word) &&& ~~~flagsMask = ~~~flagsMask := by decide
  have h1 : (0x0001 : Word) &&& ~~~flagsMask = 0#16 := by decide
  rw [flagsAfterInc, BitVec.and_or_distrib_right, BitVec.and_assoc, BitVec.and_assoc, hcf, h1, flagsAfterAdd_other_bits,
    BitVec.and_zero, BitVec.or_zero]

theorem flagsAfterInc_cf {w : Nat} (old : Word) (a : BitVec w) : flagsAfterInc old a &&& 0x0001 = old &&& 0x0001 := by
  have h1 : (~~~0x0001 : Word) &&& 0x0001 = 0#16 := by decide
  rw [flagsAfterInc, BitVec.and_or_distrib_right, BitVec.and_assoc, BitVec.and_assoc, h1, BitVec.and_self, BitVec.and_zero,
    BitVec.zero_or]

theorem flagsAfterSub_cf {w : Nat} (old : Word) (a b : BitVec w) :
    flagsAfterSub old a b &&& 0x0001 = 0x0001 ↔ a.toNat < b.toNat := by
  rw [flagsAfterSub, inside_mask (by decide), subFlags, packFlags_cf]
  by_cases h : a.toNat < b.toNat <;> simp [h]

theorem bitVec_sub_eq_zero {w : Nat} {a b : BitVec w} : a - b = 0#w ↔ a = b := by
  rw [BitVec.sub_eq_iff_eq_add, BitVec.zero_add]

theorem flagsAfterSub_zf {w : Nat} (old : Word) (a b : BitVec w) : flagsAfterSub old a b &&& 0x0040 = 0x0040 ↔ a = b := by
  rw [flagsAfterSub, inside_mask (by decide), subFlags, packFlags_zf]
  by_cases h : a = b
  · simp [h]
  · have hne : a - b ≠ 0#w := mt bitVec_sub_eq_zero.1 h
    simp [h, hne]

/-- Settles O56: one law per function, at 8 and at 16 bits. -/
theorem flagsFunctionKeepsOtherBits : Obligations.FlagsFunctionKeepsOtherBits := fun old a b c d =>
  ⟨flagsAfterSub_other_bits old a b, flagsAfterAdd_other_bits old c d, flagsAfterInc_other_bits old a,
    flagsAfterInc_other_bits old c, flagsAfterInc_cf old a, flagsAfterInc_cf old c, flagsAfterSub_cf old c d,
    flagsAfterSub_zf old c d⟩

end Sys2Proof.Machine
end

section
/-! What a row leaves unchanged, drawn from the three shapes a next state of `exec` has: the segment registers (70_reset_and_hazards.md
R134), `ip` and the program window (10_state.md R14, R48), FLAGS (R15). -/

namespace Sys2Proof.Machine

theorem State.readSeg_congr {s t : State} (hes : t.es = s.es) (hcs : t.cs = s.cs) (hss : t.ss = s.ss) (hds : t.ds = s.ds)
    (q : SegReg) : t.readSeg q = s.readSeg q := by
  cases q <;> assumption

theorem Wrote.flagsKept {s u : State} (h : Wrote s u) (n : Nat) : s.FlagsKept (u.retire n) := by
  obtain ⟨-, -, -, -, -, hflags, -, -, -, -, -, -, hfree, -⟩ := h.frame
  exact ⟨hflags, hfree⟩

/-- An instruction's write, with FLAGS or without, and its end leave all else as R14, R19 and R48 say. -/
theorem Wrote.ends {s u u' : State} (h : Wrote s u) (hf : u' = u ∨ ∃ x, u' = u.setFlags x) (n : Nat) :
    s.Ends (u'.retire n) n := by
  obtain ⟨hes, hcs, hss, hds, hip, -, -, -, hexp, halone, hdone, hleft, -, hlen⟩ := h.frame
  obtain rfl | ⟨x, rfl⟩ := hf <;>
    constructor <;> simp [hip, hexp, halone, hdone, hleft, hlen, State.readSeg_congr hes hcs hss hds]

/-- A row of two bytes or more read at an opcode position is an instruction, and ends as one. -/
theorem exec_ends {i : Instr} {s t : State} (hp : i.position = .opcodeByte) (hl : 2 ≤ i.byteLength) (h : exec i s = .next t) :
    s.Ends t i.byteLength := by
  obtain ⟨op, hpos, -⟩ | ⟨sr, rfl, -, -⟩ | ⟨u, u', -, -, hw, hf, rfl⟩ := exec_next h
  · simp [hp] at hpos
  · simp at hl
  · exact hw.ends hf _

/-- The other rows, an operand form or an override byte, leave all but the decoder's state of the instruction. -/
theorem exec_part {i : Instr} {s t : State} (hp : i.position = .eaByte ∨ i.byteLength = 1) (h : exec i s = .next t) :
    t = { s with ovr := t.ovr, operand := t.operand, prefixAlone := t.prefixAlone } := by
  obtain ⟨op, -, rfl⟩ | ⟨sr, -, -, rfl⟩ | ⟨u, u', hpos, hlen, -, -, -⟩ := exec_next h
  · rfl
  · rfl
  · obtain hp | hp := hp
    · simp [hp] at hpos
    · omega

/-- Settles O48: an instruction ends with the segment registers it began with, and the other rows write decoder state only. -/
theorem segmentRegistersKept : Obligations.SegmentRegistersKept := by
  intro i s t h q
  obtain ⟨op, -, rfl⟩ | ⟨sr, -, -, rfl⟩ | ⟨u, u', -, -, hw, hf, rfl⟩ := exec_next h
  · cases q <;> rfl
  · cases q <;> rfl
  · exact (hw.ends hf i.byteLength).segs q

/-- Settles O49: the first clause is how an instruction ends, the second the frame of the other rows. -/
theorem instructionsFallThrough : Obligations.InstructionsFallThrough := by
  intro i s t h
  refine ⟨fun hp hl => ?_, fun hp => ?_⟩
  · have he := exec_ends hp hl h
    exact ⟨he.ip, he.progDone, he.ovr, he.operand⟩
  · rw [exec_part hp h]
    exact ⟨rfl, rfl, rfl⟩

/-- Settles O50: a move is one write and its end; the rows that are parts of an instruction write decoder state only. -/
theorem onlyArithmeticChangesFlags : Obligations.OnlyArithmeticChangesFlags := by
  intro i s t h hsub hadd hincb hincw
  cases i with
  | subEbIb ea ib => exact absurd rfl (hsub ea ib)
  | addEwRw ea r => exact absurd rfl (hadd ea r)
  | incEb ea => exact absurd rfl (hincb ea)
  | incEw ea => exact absurd rfl (hincw ea)
  | movRwEw r ea =>
    cases h
    exact Wrote.flagsKept (.inl ⟨_, _, rfl⟩) _
  | movRbEb r ea =>
    cases h
    exact (wrote_writeRb s _ _).flagsKept _
  | movEwRw ea r =>
    obtain ⟨u, hu, ht⟩ := andThen_eq_next h
    cases ht
    exact (wrote_of_writeEA16 hu).flagsKept _
  | movEwIw ea iw =>
    obtain ⟨u, hu, ht⟩ := andThen_eq_next h
    cases ht
    exact (wrote_of_writeEA16 hu).flagsKept _
  | segOverrideES | segOverrideCS | segOverrideSS | segOverrideDS =>
    rw [exec_part (.inr rfl) h]
    exact ⟨rfl, rfl⟩
  | _ =>
    rw [exec_part (.inl rfl) h]
    exact ⟨rfl, rfl⟩

end Sys2Proof.Machine
end

section
/-! The fetch (10_state.md R14, 70_reset_and_hazards.md R138) and the invariant: what the bytes are where a row was fetched, and that
running the fetched row keeps `State.Inv`. -/

namespace Sys2Proof.Machine

/-! ## The bytes the decoder may read -/

theorem State.prefixLen_of_none {s : State} (h : s.ovr = none) : s.prefixLen = 0 := by simp [State.prefixLen, h]

@[simp] theorem State.length_codeBytes (s : State) : s.codeBytes.length = min longestInstr (s.progLeft - s.prefixLen) := by
  simp [State.codeBytes]

theorem State.getElem?_codeBytes {s : State} {k : Nat} {b : Byte} (h : s.codeBytes[k]? = some b) :
    s.codeByte (s.prefixLen + k) = b := by
  simp only [State.codeBytes, List.getElem?_map, Option.map_eq_some_iff] at h
  obtain ⟨j, hj, rfl⟩ := h
  obtain ⟨-, rfl⟩ := List.getElem?_eq_some_iff.1 hj
  rw [List.getElem_range]

theorem State.fetch_of_decode {s : State} {i : Instr} {rest : List Byte} (h : decode s.expects s.codeBytes = .ok (i, rest)) :
    s.fetch = .ok i := by
  simp only [State.fetch, h]

/-- Where a row is fetched the decoder stands where it is read, and the bytes left of the program begin with its bytes. -/
theorem fetch_bytes {s : State} {i : Instr} (h : s.fetch = .ok i) :
    i.position = s.expects ∧ ∃ rest, s.codeBytes = encode i ++ rest := by
  obtain ⟨rest, hd⟩ := fetch_ok h
  obtain ⟨-, hp, hb⟩ := decode_ok hd
  exact ⟨hp, rest, hb⟩

/-- A fetched row lies within the program. -/
theorem fetch_fits {s : State} {i : Instr} (h : s.fetch = .ok i) : s.prefixLen + i.byteLength ≤ s.progLeft := by
  obtain ⟨-, rest, hb⟩ := fetch_bytes h
  obtain ⟨hlen, hpos, -⟩ := encode_length i
  have hl := congrArg List.length hb
  rw [s.length_codeBytes, List.length_append, hlen] at hl
  omega

/-- A fetched override byte is the byte at `ip`. -/
theorem fetch_prefixInstr {s : State} {sr : SegReg} (h : s.fetch = .ok (prefixInstr sr)) :
    s.codeByte s.prefixLen = Config.overrideBytes sr := by
  obtain ⟨-, rest, hb⟩ := fetch_bytes h
  have h0 : s.codeBytes[0]? = some (Config.overrideBytes sr) := by simp [hb]
  simpa using State.getElem?_codeBytes h0

/-! ## The invariant -/

/-- The end of an instruction moves `ip` and the count of bytes before it alike. -/
theorem State.Ends.progBase {s t : State} {n : Nat} (h : s.Ends t n) : t.progBase = s.progBase := by
  simp only [State.progBase, h.ip, h.progDone]
  bv_omega

theorem State.Ends.progLen {s t : State} {n : Nat} (h : s.Ends t n) (hn : s.prefixLen + n ≤ s.progLeft) :
    t.progLen = s.progLen := by
  simp only [State.progLen, h.progDone, h.progLeft]
  omega

theorem State.Inv.latch {s : State} (h : s.Inv) (hp : s.expects = .eaByte) (op : Operand) : (s.latch op).Inv where
  memWf := h.memWf
  programFits := h.programFits
  noOperand he := by simp [hp] at he
  overrideRead := h.overrideRead

/-- An override byte that is read is the program's byte at `ip`. -/
theorem State.Inv.override {s : State} (h : s.Inv) {sr : SegReg} (ho : s.ovr = none) (hf : s.fetch = .ok (prefixInstr sr)) :
    State.Inv { s with ovr := some sr, prefixAlone := false } where
  memWf := h.memWf
  programFits := h.programFits
  noOperand := h.noOperand
  overrideRead q hq := by
    cases hq
    have hlen := State.prefixLen_of_none ho
    have hfits := fetch_fits hf
    rw [prefixInstr_byteLength] at hfits
    have hleft : 0 < s.progLeft := by omega
    exact ⟨hleft, hlen ▸ fetch_prefixInstr hf⟩

/-- An instruction that lies within the program ends with the program where it was and the decoder empty. -/
theorem State.Inv.ends {s t : State} {n : Nat} (h : s.Inv) (he : s.Ends t n) (hn : s.prefixLen + n ≤ s.progLeft)
    (hm : t.mem.wf = true) : t.Inv where
  memWf := hm
  programFits := by
    rw [he.progBase, he.progLen hn]
    exact h.programFits
  noOperand _ := he.operand
  overrideRead q hq := by simp [he.ovr] at hq

theorem exec_keeps_inv {i : Instr} {s t : State} (h : s.Inv) (hf : s.fetch = .ok i) (hx : exec i s = .next t) : t.Inv := by
  obtain ⟨op, hp, rfl⟩ | ⟨sr, rfl, ho, rfl⟩ | ⟨u, u', -, -, hw, hu, rfl⟩ := exec_next hx
  · obtain ⟨hpos, -⟩ := fetch_bytes hf
    exact h.latch (hpos ▸ hp) op
  · exact h.override ho hf
  · have hm : (u'.retire i.byteLength).mem.wf = true := by
      obtain rfl | ⟨x, rfl⟩ := hu <;> exact hw.memWf h.memWf
    exact h.ends (hw.ends hu _) (fetch_fits hf) hm

/-- Settles O46: a step runs a fetched row, or reads an override byte and runs the row fetched after it, and each keeps the
invariant. -/
theorem stepKeepsInvariant : Obligations.StepKeepsInvariant := by
  intro s t h hstep
  obtain ⟨-, i, hf, ⟨-, hx⟩ | ⟨sr, j, rfl, -, ho, -, hj, hx⟩⟩ := step_next hstep
  · exact exec_keeps_inv h hf hx
  · exact exec_keeps_inv (h.override ho hf) hj hx

end Sys2Proof.Machine
end

section
/-! What a step runs (10_state.md R14; 30_encoding.md R40, R48, R54, R55; 70_reset_and_hazards.md R138): from the bytes at the place the
decoder stands to the row the step executes. -/

namespace Sys2Proof.Machine

/-! ## From the bytes to the fetch -/

/-- Bytes of memory that lie within the program and are no more than the longest instruction has are what the decoder reads first. -/
theorem State.codeBytes_eq_append {s : State} {bs : List Byte} (hl : bs.length ≤ longestInstr)
    (hfit : s.prefixLen + bs.length ≤ s.progLeft) (hb : ∀ k b, bs[k]? = some b → s.codeByte (s.prefixLen + k) = b) :
    ∃ rest, s.codeBytes = bs ++ rest := by
  have hpre : bs <+: s.codeBytes := by
    refine List.prefix_iff_getElem.2 ⟨by rw [s.length_codeBytes]; omega, fun k hk => ?_⟩
    rw [← hb k bs[k] (List.getElem?_eq_getElem hk)]
    simp [State.codeBytes]
  obtain ⟨rest, hrest⟩ := hpre
  exact ⟨rest, hrest.symm⟩

/-- Where the program's next bytes are the encoding of a row, and the decoder stands where it is read, the decoder answers that
row. -/
theorem State.decode_of_bytes {s : State} {i : Instr} (hw : i.wf = true) (hp : s.expects = i.position)
    (hfit : s.prefixLen + (encode i).length ≤ s.progLeft)
    (hb : ∀ k b, (encode i)[k]? = some b → s.codeByte (s.prefixLen + k) = b) :
    ∃ rest, decode s.expects s.codeBytes = .ok (i, rest) := by
  obtain ⟨hlen, -, hmax⟩ := encode_length i
  obtain ⟨rest, hrest⟩ := State.codeBytes_eq_append (hlen ▸ hmax) hfit hb
  exact ⟨rest, by rw [hp, hrest, decode_encode hw]⟩

/-! ## From the fetch to the step -/

/-- A run has not ended where a row is fetched. -/
theorem runEnded_of_fetch {s : State} {i : Instr} (h : s.fetch = .ok i) : s.runEnded = false := by
  obtain ⟨-, hpos, -⟩ := encode_length i
  have hfits := fetch_fits h
  have hne : s.progLeft ≠ 0 := by omega
  simp [State.runEnded, hne]

theorem step_of_fetch {s : State} {i : Instr} (h : s.fetch = .ok i) :
    step s = if i.isOverride && !s.prefixAlone then andThen (exec i s) runRow else exec i s := by
  simp [step, runEnded_of_fetch h, runInstr, h]

/-- A row by itself. -/
theorem step_of_fetch_alone {s : State} {i : Instr} (h : s.fetch = .ok i) (ha : i.isOverride = false ∨ s.prefixAlone = true) :
    step s = exec i s := by
  rw [step_of_fetch h]
  obtain ha | ha := ha <;> simp [ha]

theorem State.override_of_none {s : State} (ho : s.ovr = none) (sr : SegReg) :
    s.override sr = .next { s with ovr := some sr, prefixAlone := false } := by
  simp only [State.override, ho]

theorem State.override_of_some {s : State} (ho : s.ovr.isSome = true) (sr : SegReg) :
    s.override sr = .refused .multiplePrefixes := by
  obtain ⟨q, hq⟩ := Option.isSome_iff_exists.1 ho
  simp only [State.override, hq]

/-- An override byte with the row after it. -/
theorem step_of_fetch_override {s : State} {sr : SegReg} {j : Instr} (h : s.fetch = .ok (prefixInstr sr))
    (ha : s.prefixAlone = false) (ho : s.ovr = none) (hj : State.fetch { s with ovr := some sr } = .ok j) :
    step s = exec j { s with ovr := some sr } := by
  have hs : { s with ovr := some sr, prefixAlone := false } = { s with ovr := some sr } := by rw [← ha]
  rw [step_of_fetch h, prefixInstr_isOverride, ha, exec_prefixInstr, State.override_of_none ho, hs]
  simp [runRow, hj]

/-- A second override byte (R55). -/
theorem step_of_fetch_second_override {s : State} {i : Instr} (h : s.fetch = .ok i) (hi : i.isOverride = true)
    (ho : s.ovr.isSome = true) : step s = .refused .multiplePrefixes := by
  obtain ⟨sr, rfl⟩ := isOverride_iff.1 hi
  rw [step_of_fetch h, exec_prefixInstr, State.override_of_some ho]
  split <;> rfl

/-- Settles O40: one rule of a step per clause. -/
theorem stepRunsDecodedInstruction : Obligations.StepRunsDecodedInstruction := by
  intro s i rest hd
  have hf := State.fetch_of_decode hd
  refine ⟨step_of_fetch_alone hf, ?_, step_of_fetch_second_override hf⟩
  rintro sr j rest' rfl ha ho hj
  obtain ⟨-, hp, -⟩ := decode_ok hd
  rw [prefixInstr_position] at hp
  rw [hp] at hj
  exact step_of_fetch_override hf ha ho (State.fetch_of_decode hj)

/-- Settles O41: the bytes decode to the row, and a step runs the decoded row. -/
theorem stepRunsEncodedInstruction : Obligations.StepRunsEncodedInstruction := by
  intro s i hw hp ha hfit hb
  obtain ⟨rest, hd⟩ := State.decode_of_bytes hw hp hfit hb
  exact step_of_fetch_alone (State.fetch_of_decode hd) ha

theorem State.AtBoundary.expects {s : State} (h : s.AtBoundary) : s.expects = .opcodeByte := h.1

theorem State.AtBoundary.ovr {s : State} (h : s.AtBoundary) : s.ovr = none := h.2.1

/-- The fetch at a boundary, and again past the override byte, where the program's bytes are that byte and a row's. -/
theorem fetch_override_then_row {s : State} {sr : SegReg} {i : Instr} (hbd : s.AtBoundary) (hw : i.wf = true)
    (hp : i.position = .opcodeByte) (hfit : 1 + (encode i).length ≤ s.progLeft) (h0 : s.codeByte 0 = Config.overrideBytes sr)
    (hb : ∀ k b, (encode i)[k]? = some b → s.codeByte (1 + k) = b) :
    s.fetch = .ok (prefixInstr sr) ∧ State.fetch { s with ovr := some sr } = .ok i := by
  have hexp := hbd.expects
  have hlen := State.prefixLen_of_none hbd.ovr
  have hfirst : ∃ rest, decode s.expects s.codeBytes = .ok (prefixInstr sr, rest) := by
    refine State.decode_of_bytes (prefixInstr_wf sr) (by simp [hexp]) (by simp [hlen]; omega) fun k b hk => ?_
    rw [encode_prefixInstr, List.getElem?_singleton] at hk
    split at hk
    · cases hk
      simp_all
    · cases hk
  have hsecond : ∃ rest, decode s.expects (State.codeBytes { s with ovr := some sr }) = .ok (i, rest) :=
    State.decode_of_bytes (s := { s with ovr := some sr }) hw (hexp.trans hp.symm) hfit hb
  obtain ⟨_, hd1⟩ := hfirst
  obtain ⟨_, hd2⟩ := hsecond
  exact ⟨State.fetch_of_decode hd1, State.fetch_of_decode (s := { s with ovr := some sr }) hd2⟩

/-- Settles O42: where the override byte is part of its instruction, the step goes on with the row after it; where it is asked for by
itself, the row after it is the step after it, and is refused there if it is an override byte too. -/
theorem prefixedInstructionRuns : Obligations.PrefixedInstructionRuns := by
  intro s sr i hbd hw hp hfit h0 hb
  obtain ⟨hf, hj⟩ := fetch_override_then_row hbd hw hp hfit h0 hb
  have hovr := hbd.ovr
  refine ⟨fun ha => step_of_fetch_override hf ha hovr hj, fun ha => ⟨?_, ?_⟩⟩
  · rw [step_of_fetch_alone hf (.inr ha), exec_prefixInstr, State.override_of_none hovr]
  · have hj' : State.fetch { s with ovr := some sr, prefixAlone := false } = .ok i := hj
    cases hi : i.isOverride with
    | false => exact step_of_fetch_alone hj' (.inl hi)
    | true =>
      rw [step_of_fetch_second_override hj' hi rfl]
      obtain ⟨q, rfl⟩ := isOverride_iff.1 hi
      rw [exec_prefixInstr, State.override_of_some rfl]

end Sys2Proof.Machine
end

section
/-! What takes no part in a step: FLAGS (10_state.md R15) and, where the segment registers are equal, the segment register an override
names (R21). Both are fields that no primitive of an instruction reads but through the operand's segment and the length of the
override byte, so one theorem over the eight instructions says what replacing them does. -/

namespace Sys2Proof.Machine

/-- The state with FLAGS and the pending override replaced. -/
def State.replace (s : State) (f : Word) (o : Option SegReg) : State := { s with flags := f, ovr := o }

/-- The operand's segment is the same under the replaced override, whatever its default. -/
def State.SameSegs (s : State) (f : Word) (o : Option SegReg) : Prop := ∀ d, (s.replace f o).eaSeg d = s.eaSeg d

theorem State.replace_self (s : State) : s.replace s.flags s.ovr = s := rfl

theorem State.writeRw_replace (s : State) (f : Word) (o : Option SegReg) (r : Reg16) (v : Word) :
    (s.replace f o).writeRw r v = (s.writeRw r v).replace f o := by
  cases r <;> rfl

theorem State.writeRb_replace (s : State) (f : Word) (o : Option SegReg) (r : Reg8) (v : Byte) :
    (s.replace f o).writeRb r v = (s.writeRb r v).replace f o := by
  unfold State.writeRb
  split <;> exact s.writeRw_replace f o _ _

theorem decodeEA_replace (ea : Ea) (s : State) (f : Word) (o : Option SegReg) : decodeEA ea (s.replace f o) = decodeEA ea s :=
  addressRegisters ea _ _ rfl rfl rfl rfl

section
variable {s : State} {f : Word} {o : Option SegReg} (hseg : s.SameSegs f o)

include hseg

theorem State.readEA8_replace (op : Operand) : (s.replace f o).readEA8 op = s.readEA8 op := by
  cases op with
  | reg i => rfl
  | mem off d => exact congrArg (s.segRead8 · off) (hseg d)

theorem State.readEA16_replace (op : Operand) : (s.replace f o).readEA16 op = s.readEA16 op := by
  cases op with
  | reg i => rfl
  | mem off d => exact congrArg (s.segRead16 · off) (hseg d)

/-- A byte stored with the two fields replaced, and what follows, is the byte stored and what follows with them replaced; `φ` is the
view of an outcome that is asked for. -/
theorem writeEA8_replace {β : Type} (φ : Res → β) (op : Operand) (v : Byte) {k k' : State → Res}
    (hk : ∀ u : State, φ (k (u.replace f o)) = φ (k' (u.replace s.flags s.ovr))) :
    φ (andThen ((s.replace f o).writeEA8 op v) k) = φ (andThen (s.writeEA8 op v) k') := by
  cases op with
  | reg i =>
    have hs : s.writeRb i.rb v = (s.writeRb i.rb v).replace s.flags s.ovr := s.writeRb_replace s.flags s.ovr i.rb v
    rw [State.writeEA8_reg, State.writeEA8_reg, State.writeRb_replace, hs]
    exact hk (s.writeRb i.rb v)
  | mem off d =>
    simp only [State.writeEA8, hseg d]
    have hh : (s.replace f o).hitsProgram (s.eaSeg d) off 1 = s.hitsProgram (s.eaSeg d) off 1 := rfl
    rw [hh]
    split
    · rfl
    · exact hk (s.segWrite8 (s.eaSeg d) off v)

/-- The same for a word. -/
theorem writeEA16_replace {β : Type} (φ : Res → β) (op : Operand) (v : Word) {k k' : State → Res}
    (hk : ∀ u : State, φ (k (u.replace f o)) = φ (k' (u.replace s.flags s.ovr))) :
    φ (andThen ((s.replace f o).writeEA16 op v) k) = φ (andThen (s.writeEA16 op v) k') := by
  cases op with
  | reg i =>
    have hs : s.writeRw i.rw v = (s.writeRw i.rw v).replace s.flags s.ovr := s.writeRw_replace s.flags s.ovr i.rw v
    rw [State.writeEA16_reg, State.writeEA16_reg, State.writeRw_replace, hs]
    exact hk (s.writeRw i.rw v)
  | mem off d =>
    simp only [State.writeEA16, hseg d]
    have hh : (s.replace f o).hitsProgram (s.eaSeg d) off 2 = s.hitsProgram (s.eaSeg d) off 2 := rfl
    rw [hh]
    split
    · rfl
    · exact hk (s.segWrite16 (s.eaSeg d) off v)

/-- An instruction run with the two fields replaced has the same outcome, in any view that does not tell its end with them replaced
from its end, neither after a move nor after FLAGS took its free value. -/
theorem exec_replace {β : Type} (φ : Res → β)
    (hmove : ∀ (u : State) n, φ (.next ((u.replace f o).retire n)) = φ (.next ((u.replace s.flags s.ovr).retire n)))
    (harith : ∀ (u : State) n x y,
      φ (.next (((u.replace f o).setFlags x).retire n)) = φ (.next (((u.replace s.flags s.ovr).setFlags y).retire n)))
    {i : Instr} (hp : i.position = .opcodeByte) (hi : i.isOverride = false) : φ (exec i (s.replace f o)) = φ (exec i s) := by
  cases i with
  | subEbIb ea ib =>
    simp only [exec, execSubEbIb, decodeEA_replace, State.readEA8_replace hseg]
    exact writeEA8_replace hseg φ _ _ fun u => harith u _ _ _
  | addEwRw ea r =>
    simp only [exec, execAddEwRw, decodeEA_replace, State.readEA16_replace hseg]
    exact writeEA16_replace hseg φ _ _ fun u => harith u _ _ _
  | movRwEw r ea =>
    have hs := s.writeRw_replace s.flags s.ovr r (s.readEA16 (decodeEA ea s))
    simp only [exec, execMovRwEw, decodeEA_replace, State.readEA16_replace hseg, State.writeRw_replace]
    rw [hmove, ← hs, s.replace_self]
  | movEwRw ea r =>
    simp only [exec, execMovEwRw, decodeEA_replace]
    exact writeEA16_replace hseg φ _ _ fun u => hmove u _
  | movRbEb r ea =>
    have hs := s.writeRb_replace s.flags s.ovr r (s.readEA8 (decodeEA ea s))
    simp only [exec, execMovRbEb, decodeEA_replace, State.readEA8_replace hseg, State.writeRb_replace]
    rw [hmove, ← hs, s.replace_self]
  | movEwIw ea iw =>
    simp only [exec, execMovEwIw, decodeEA_replace]
    exact writeEA16_replace hseg φ _ _ fun u => hmove u _
  | incEb ea =>
    simp only [exec, execIncEb, decodeEA_replace, State.readEA8_replace hseg]
    exact writeEA8_replace hseg φ _ _ fun u => harith u _ _ _
  | incEw ea =>
    simp only [exec, execIncEw, decodeEA_replace, State.readEA16_replace hseg]
    exact writeEA16_replace hseg φ _ _ fun u => harith u _ _ _
  | segOverrideES | segOverrideCS | segOverrideSS | segOverrideDS => cases hi
  | _ => cases hp

end

/-! ## FLAGS -/

/-- An override byte, and what goes on from it alike but for FLAGS. -/
theorem override_then_flags {k : State → Res} (hk : ∀ t f, withoutFlags (k { t with flags := f }) = withoutFlags (k t)) (s : State)
    (f : Word) (sr : SegReg) :
    withoutFlags (andThen (State.override { s with flags := f } sr) k) = withoutFlags (andThen (s.override sr) k) := by
  cases ho : s.ovr.isSome with
  | false =>
    rw [Option.isSome_eq_false_iff, Option.isNone_iff_eq_none] at ho
    rw [State.override_of_none ho, State.override_of_none (s := { s with flags := f }) ho]
    exact hk { s with ovr := some sr, prefixAlone := false } f
  | true => rw [State.override_of_some ho, State.override_of_some (s := { s with flags := f }) ho]

theorem andThen_next_right (r : Res) : andThen r .next = r := by cases r <;> rfl

/-- An operand-form row keeps the operand it stands for (R62 to R93 against R61). -/
theorem exec_ofEa (c : Digit) {ea : Ea} (h : ea.wf = true) (s : State) :
    exec (Instr.ofEa c ea) s = .next (s.latch (decodeEA ea s)) := by
  cases ea with
  | sum r => cases r with
    | bp => exact absurd h (by decide)
    | _ => rfl
  | var d => rfl
  | sumD8 r d => cases r <;> rfl
  | sumD16 r d => cases r <;> rfl
  | reg i => cases i <;> rfl

theorem exec_eaForm_flags {i : Instr} (hp : i.position = .eaByte) (s : State) (f : Word) :
    withoutFlags (exec i { s with flags := f }) = withoutFlags (exec i s) := by
  obtain ⟨c, ea, hf⟩ := position_eq_eaByte_iff.1 hp
  obtain ⟨hw, rfl, -⟩ := eaForm?_eq_some hf
  have hea : decodeEA ea { s with flags := f } = decodeEA ea s := decodeEA_replace ea s f s.ovr
  rw [exec_ofEa c hw, exec_ofEa c hw, hea]
  rfl

theorem exec_flags (i : Instr) (s : State) (f : Word) : withoutFlags (exec i { s with flags := f }) = withoutFlags (exec i s) := by
  cases hp : i.position with
  | eaByte => exact exec_eaForm_flags hp s f
  | opcodeByte =>
    cases hi : i.isOverride with
    | true =>
      obtain ⟨sr, rfl⟩ := isOverride_iff.1 hi
      have h := override_then_flags (k := .next) (fun _ _ => rfl) s f sr
      simpa only [exec_prefixInstr, andThen_next_right] using h
    | false =>
      have hseg : s.SameSegs f s.ovr := fun _ => rfl
      exact exec_replace hseg withoutFlags (fun _ _ => rfl) (fun _ _ _ _ => rfl) hp hi

theorem fetch_flags (s : State) (f : Word) : State.fetch { s with flags := f } = s.fetch := rfl

theorem runRow_flags (s : State) (f : Word) : withoutFlags (runRow { s with flags := f }) = withoutFlags (runRow s) := by
  unfold runRow
  rw [fetch_flags]
  cases s.fetch with
  | error r => rfl
  | ok i => exact exec_flags i s f

/-- Settles O51: what is fetched does not depend on FLAGS, nor does what a row does but for FLAGS. -/
theorem flagsAreNeverRead : Obligations.FlagsAreNeverRead := by
  intro s f
  have hend : State.runEnded { s with flags := f } = s.runEnded := rfl
  unfold step runInstr
  rw [hend, fetch_flags]
  split
  · rfl
  · cases s.fetch with
    | error r => rfl
    | ok i =>
      dsimp only
      split
      · rename_i hc
        obtain ⟨hi, -⟩ := Bool.and_eq_true_iff.1 hc
        obtain ⟨sr, rfl⟩ := isOverride_iff.1 hi
        simp only [exec_prefixInstr]
        exact override_then_flags runRow_flags s f sr
      · exact exec_flags i s f

/-! ## Equal segment registers -/

theorem State.readSeg_eq_of_equal {s : State} (h1 : s.cs = s.ds) (h2 : s.ds = s.es) (h3 : s.es = s.ss) (q : SegReg) :
    s.readSeg q = s.ss := by
  cases q <;> simp only [State.readSeg, h1, h2, h3]

/-- Settles O52: the operand's segment is one value whichever register is named, and the instruction's end empties the override; an
override byte is refused beside either. -/
theorem equalSegmentsMakeOverridesIdle : Obligations.EqualSegmentsMakeOverridesIdle := by
  intro i s a b h1 h2 h3 hp
  cases hi : i.isOverride with
  | true =>
    obtain ⟨sr, rfl⟩ := isOverride_iff.1 hi
    rw [exec_prefixInstr, exec_prefixInstr, State.override_of_some rfl, State.override_of_some rfl]
  | false =>
    have hall := State.readSeg_eq_of_equal h1 h2 h3
    have hseg : State.SameSegs { s with ovr := some b } s.flags (some a) := fun _ => (hall a).trans (hall b).symm
    exact exec_replace hseg id (fun _ _ => rfl) (fun _ _ _ _ => rfl) hp hi

end Sys2Proof.Machine
end

section
/-! A program as its instructions in order (70_reset_and_hazards.md R138): a store leaves the program's bytes alone (20_memory.md R37),
so after each step the machine stands at the rest of the program. -/

namespace Sys2Proof.Machine

/-! ## The program's bytes -/

/-- The offset of a location within the window of a segment (R23, R25). -/
theorem phys_sub_base (seg off : Word) : (phys seg off - phys seg 0).toNat = off.toNat := by
  have hs := seg.isLt
  have ho := off.isLt
  have hz : (0 : Word).toNat = 0 := rfl
  simp only [BitVec.toNat_sub, phys_toNat, hz]
  omega

/-- The locations of the program's bytes are the program's, the wrap at offset 0x10000 included. -/
theorem State.inProgram_programByte {s : State} {k : Nat} (hk : k < s.progLen) :
    s.inProgram (phys s.cs (s.progBase + BitVec.ofNat 16 k)) = true := by
  have hoff : s.progBase + BitVec.ofNat 16 k - s.progBase = BitVec.ofNat 16 k := by
    rw [BitVec.add_comm, BitVec.add_sub_cancel]
  have hle : k % 2 ^ 16 ≤ k := Nat.mod_le _ _
  simp only [State.inProgram, phys_sub_base, BitVec.ofNat_toNat, BitVec.setWidth_eq, hoff, BitVec.toNat_ofNat, Bool.and_eq_true,
    decide_eq_true_eq]
  exact ⟨BitVec.isLt _, by omega⟩

/-- The bytes still to be fetched are the program's. -/
theorem State.inProgram_codeByte {s : State} {k : Nat} (hk : k < s.progLeft) :
    s.inProgram (phys s.cs (s.ip + BitVec.ofNat 16 k)) = true := by
  have hoff : s.ip + BitVec.ofNat 16 k = s.progBase + BitVec.ofNat 16 (s.progDone + k) := by
    simp only [State.progBase]
    bv_omega
  rw [hoff]
  exact State.inProgram_programByte (by simp only [State.progLen]; omega)

/-- A store that hits no byte of the program has no byte at one of its locations. -/
theorem State.ne_of_not_hitsProgram {s : State} {seg off : Word} {n k : Nat} {a : Loc} (h : s.hitsProgram seg off n = false)
    (hk : k < n) (ha : s.inProgram a = true) : a ≠ phys seg (off + BitVec.ofNat 16 k) := by
  induction n with
  | zero => omega
  | succ n ih =>
    simp only [State.hitsProgram, Bool.or_eq_false_iff] at h
    obtain ⟨hlow, htop⟩ := h
    by_cases hkn : k = n
    · rintro rfl
      simp [hkn, htop] at ha
    · exact ih hlow (by omega)

/-- "Self-modifying code" is refused (R37), so what is written leaves the program's bytes. -/
theorem Wrote.readByte_program {s u : State} (h : Wrote s u) {a : Loc} (ha : s.inProgram a = true) :
    u.readByte a = s.readByte a := by
  obtain ⟨r, v, rfl⟩ | ⟨seg, off, v, hh, rfl⟩ | ⟨seg, off, v, hh, rfl⟩ := h
  · simp [State.readByte]
  · have h0 := State.ne_of_not_hitsProgram hh (k := 0) (by decide) ha
    exact s.readByte_segWrite8_other v (by simpa using h0)
  · have h0 := State.ne_of_not_hitsProgram hh (k := 0) (by decide) ha
    have h1 := State.ne_of_not_hitsProgram hh (k := 1) (by decide) ha
    exact s.readByte_segWrite16_other v (by simpa using h0) h1

/-- After an instruction the bytes at `ip` are those that stood past it. -/
theorem exec_codeByte {i : Instr} {s t : State} (hp : i.position = .opcodeByte) (hl : 2 ≤ i.byteLength) (h : exec i s = .next t)
    {k : Nat} (hk : s.prefixLen + i.byteLength + k < s.progLeft) :
    t.codeByte k = s.codeByte (s.prefixLen + i.byteLength + k) := by
  have hends := exec_ends hp hl h
  obtain ⟨op, hpos, -⟩ | ⟨sr, rfl, -, -⟩ | ⟨u, u', -, -, hw, hf, rfl⟩ := exec_next h
  · simp [hp] at hpos
  · simp at hl
  · have hread : ∀ a, (u'.retire i.byteLength).readByte a = u.readByte a := by
      obtain rfl | ⟨x, rfl⟩ := hf <;> exact fun _ => rfl
    have hcs : (u'.retire i.byteLength).cs = s.cs := hends.segs .cs
    rw [State.codeByte, State.segRead8, hread, hcs, hends.ip, BitVec.add_assoc, ← BitVec.ofNat_add]
    exact hw.readByte_program (State.inProgram_codeByte hk)

/-! ## One instruction of a program -/

theorem IsInstruction.position {i : Instr} (h : IsInstruction i) : i.position = .opcodeByte := h.2.1

theorem IsInstruction.two_le {i : Instr} (h : IsInstruction i) : 2 ≤ i.byteLength := by
  obtain ⟨-, hp, hi⟩ := h
  cases i with
  | subEbIb ea ib | addEwRw ea r | movRwEw r ea | movEwRw ea r | movRbEb r ea | movEwIw ea iw | incEb ea | incEw ea =>
    simp only [Instr.byteLength]
    omega
  | segOverrideES | segOverrideCS | segOverrideSS | segOverrideDS => cases hi
  | _ => cases hp

/-- An outcome is a next state, or the refusal of a store into the program. -/
def NextOrSelfModifying (r : Res) : Prop := r = .refused .selfModifyingCode ∨ ∃ t, r = .next t

theorem NextOrSelfModifying.andThen {r : Res} (h : NextOrSelfModifying r) (g : State → State) :
    NextOrSelfModifying (andThen r fun u => .next (g u)) := by
  obtain rfl | ⟨t, rfl⟩ := h
  · exact .inl rfl
  · exact .inr ⟨g t, rfl⟩

theorem State.writeEA8_outcome (s : State) (op : Operand) (v : Byte) : NextOrSelfModifying (s.writeEA8 op v) := by
  cases op with
  | reg i => exact .inr ⟨_, rfl⟩
  | mem off d =>
    simp only [State.writeEA8]
    split
    · exact .inl rfl
    · exact .inr ⟨_, rfl⟩

theorem State.writeEA16_outcome (s : State) (op : Operand) (v : Word) : NextOrSelfModifying (s.writeEA16 op v) := by
  cases op with
  | reg i => exact .inr ⟨_, rfl⟩
  | mem off d =>
    simp only [State.writeEA16]
    split
    · exact .inl rfl
    · exact .inr ⟨_, rfl⟩

/-- An instruction stops for one reason only (R37, R120). -/
theorem exec_outcome {i : Instr} (h : IsInstruction i) (s : State) : NextOrSelfModifying (exec i s) := by
  obtain ⟨-, hp, hi⟩ := h
  cases i with
  | subEbIb ea ib | incEb ea => exact (s.writeEA8_outcome _ _).andThen _
  | addEwRw ea r | movEwRw ea r | movEwIw ea iw | incEw ea => exact (s.writeEA16_outcome _ _).andThen _
  | movRwEw r ea | movRbEb r ea => exact .inr ⟨_, rfl⟩
  | segOverrideES | segOverrideCS | segOverrideSS | segOverrideDS => cases hi
  | _ => cases hp

/-! ## The program -/

@[simp] theorem programBytes_cons (x : Option SegReg × Instr) (p : List (Option SegReg × Instr)) :
    programBytes (x :: p) = instrBytes x ++ programBytes p := List.flatMap_cons

/-- Between instructions, at a program that is all there is left to run: its bytes stand at `CS:ip`. -/
structure State.AtProgram (s : State) (p : List (Option SegReg × Instr)) : Prop where
  boundary : s.AtBoundary
  prefixAlone : s.prefixAlone = false
  progLeft : s.progLeft = (programBytes p).length
  bytes : ∀ k b, (programBytes p)[k]? = some b → s.codeByte k = b

theorem State.runEnded_of_boundary {s : State} (h : s.AtBoundary) : s.runEnded = decide (s.progLeft = 0) := by
  simp [State.runEnded, h.expects, h.ovr]

/-- An instruction's bytes are as many as the instruction counts when it ends with its override pending (R48). -/
theorem instrBytes_length (x : Option SegReg × Instr) (s : State) :
    (instrBytes x).length = State.prefixLen { s with ovr := x.1 } + x.2.byteLength := by
  obtain ⟨o, i⟩ := x
  obtain ⟨hlen, -, -⟩ := encode_length i
  cases o with
  | none => simp [instrBytes, State.prefixLen, hlen]
  | some sr => simp [instrBytes, State.prefixLen, hlen, Nat.add_comm]

/-- A step from a program runs its first instruction, with its override pending. -/
theorem State.AtProgram.step_eq {s : State} {x : Option SegReg × Instr} {p : List (Option SegReg × Instr)} (h : s.AtProgram (x :: p))
    (hx : IsInstruction x.2) : step s = exec x.2 { s with ovr := x.1 } := by
  obtain ⟨o, i⟩ := x
  obtain ⟨hbd, halone, hleft, hbytes⟩ := h
  obtain ⟨hw, hp, hi⟩ := hx
  have hfirst : ∀ k b, (instrBytes (o, i))[k]? = some b → s.codeByte k = b := fun k b hk => by
    have hlt := (List.getElem?_eq_some_iff.1 hk).1
    exact hbytes k b (by rw [programBytes_cons, List.getElem?_append_left hlt, hk])
  rw [programBytes_cons, List.length_append] at hleft
  cases o with
  | none =>
    have hs : { s with ovr := none } = s := by rw [← hbd.ovr]
    have hlen := State.prefixLen_of_none hbd.ovr
    rw [hs]
    refine stepRunsEncodedInstruction s i hw (hbd.expects.trans hp.symm) (.inl hi) ?_ fun k b hk => ?_
    · rw [hlen, hleft, instrBytes]
      omega
    · rw [hlen, Nat.zero_add]
      exact hfirst k b hk
  | some sr =>
    refine (prefixedInstructionRuns s sr i hbd hw hp ?_ (hfirst 0 _ rfl) fun k b hk => ?_).1 halone
    · rw [hleft, instrBytes, List.length_cons]
      omega
    · exact hfirst (1 + k) b (by rw [instrBytes, Nat.add_comm, List.getElem?_cons_succ, hk])

/-- A step from a program is refused, or ends its first instruction at the rest of the program. -/
theorem State.AtProgram.step {s : State} {x : Option SegReg × Instr} {p : List (Option SegReg × Instr)} (h : s.AtProgram (x :: p))
    (hx : IsInstruction x.2) :
    step s = .refused .selfModifyingCode ∨
    ∃ t, step s = .next t ∧ t.AtProgram p ∧ t.ip = s.ip + BitVec.ofNat 16 (instrBytes x).length := by
  have hlen := instrBytes_length x s
  rw [h.step_eq hx]
  obtain hr | ⟨t, ht⟩ := exec_outcome hx { s with ovr := x.1 }
  · exact .inl hr
  · have he := exec_ends hx.position hx.two_le ht
    have hleft := h.progLeft
    rw [programBytes_cons, List.length_append] at hleft
    have hbd : t.AtBoundary := ⟨he.expects.trans h.boundary.expects, he.ovr, he.operand⟩
    refine .inr ⟨t, ht, ⟨hbd, he.prefixAlone.trans h.prefixAlone, ?_, fun k b hk => ?_⟩, ?_⟩
    · rw [he.progLeft, ← hlen]
      simp [hleft]
    · have hklt := (List.getElem?_eq_some_iff.1 hk).1
      rw [exec_codeByte hx.position hx.two_le ht (by rw [← hlen]; simp only [hleft]; omega), ← hlen]
      refine h.bytes _ b ?_
      rw [programBytes_cons, List.getElem?_append_right (Nat.le_add_right _ _), Nat.add_sub_cancel_left, hk]
    · rw [he.ip, ← hlen]

theorem run_succ_next {s t : State} (h : step s = .next t) (n : Nat) :
    Host.Core.run Sys2Proof.core (n + 1) s = Host.Core.run Sys2Proof.core n t := by
  have h' : Sys2Proof.core.step s = .next t := h
  simp only [Host.Core.run, h']

theorem run_succ_refused {s : State} {r : Refusal} (h : step s = .refused r) (n : Nat) :
    Host.Core.run Sys2Proof.core (n + 1) s = .refused r := by
  have h' : Sys2Proof.core.step s = .refused r := h
  simp only [Host.Core.run, h']

/-- As many steps as instructions, unless a store into the program is refused, leave the machine at the instructions after them. -/
theorem run_program {p : List (Option SegReg × Instr)} {s : State} (h : s.AtProgram p) (hall : ∀ x ∈ p, IsInstruction x.2) {n : Nat}
    (hn : n ≤ p.length) :
    Host.Core.run Sys2Proof.core n s = Host.Outcome.refused Refusal.selfModifyingCode ∨
    ∃ t : State, Host.Core.run Sys2Proof.core n s = Host.Outcome.next t ∧ t.AtProgram (p.drop n) ∧
      t.ip = s.ip + BitVec.ofNat 16 (programBytes (p.take n)).length := by
  induction n generalizing p s with
  | zero => exact .inr ⟨s, rfl, h, by simp [programBytes]⟩
  | succ n ih =>
    cases p with
    | nil => simp at hn
    | cons x p =>
      rw [List.forall_mem_cons] at hall
      obtain ⟨hx, hrest⟩ := hall
      obtain hr | ⟨t, ht, hat, hip⟩ := h.step hx
      · exact .inl (run_succ_refused hr n)
      · rw [run_succ_next ht]
        obtain hr | ⟨u, hu, hau, huip⟩ := ih hat hrest (Nat.le_of_succ_le_succ hn)
        · exact .inl hr
        · refine .inr ⟨u, hu, hau, ?_⟩
          rw [huip, hip, List.take_succ_cons, programBytes_cons, List.length_append, BitVec.ofNat_add, BitVec.add_assoc]

theorem programBytes_pos {p : List (Option SegReg × Instr)} (h : p ≠ []) : 0 < (programBytes p).length := by
  obtain ⟨x, p, rfl⟩ := List.exists_cons_of_ne_nil h
  obtain ⟨-, hpos, -⟩ := encode_length x.2
  rw [programBytes_cons, List.length_append, instrBytes_length x State.reset]
  omega

/-- Settles O59: what is left after `n` steps are the instructions left, and it is empty exactly where the run has ended. -/
theorem runOfKInstructionsTakesKSteps : Obligations.RunOfKInstructionsTakesKSteps := by
  intro s p hbd halone hall hleft hbytes n hn
  obtain hr | ⟨t, ht, hat, hip⟩ := run_program ⟨hbd, halone, hleft, hbytes⟩ hall hn
  · exact .inl hr
  · have hend := State.runEnded_of_boundary hat.boundary
    refine .inr ⟨t, ht, hat.boundary, hip, hat.progLeft, fun hlt => ?_, fun heq => ?_⟩
    · have hpos := programBytes_pos (mt List.drop_eq_nil_iff.1 (Nat.not_le.2 hlt))
      rw [hend, hat.progLeft]
      exact decide_eq_false (by omega)
    · have hzero : t.progLeft = 0 := by rw [hat.progLeft, heq, List.drop_length]; rfl
      simp [Machine.step, hend, hzero]

end Sys2Proof.Machine
end

section
/-! Memory (20_memory.md R23 to R30, R37): where an offset of a segment lies, words and doublewords through a segment, the stores that
are refused, and that no step changes the program. -/

namespace Sys2Proof.Machine

/-! ## No step changes the program (R37) -/

/-- No row changes a byte of the program. -/
theorem exec_readByte_program {i : Instr} {s t : State} (h : exec i s = .next t) {a : Loc} (ha : s.inProgram a = true) :
    t.readByte a = s.readByte a := by
  obtain ⟨op, -, rfl⟩ | ⟨sr, -, -, rfl⟩ | ⟨u, u', -, -, hw, hf, rfl⟩ := exec_next h
  · rfl
  · rfl
  · have hread : (u'.retire i.byteLength).readByte a = u.readByte a := by
      obtain rfl | ⟨x, rfl⟩ := hf <;> rfl
    exact hread.trans (hw.readByte_program ha)

/-- A row that lies within the program leaves the program's place and length. -/
theorem exec_keeps_window {i : Instr} {s t : State} (hfit : s.prefixLen + i.byteLength ≤ s.progLeft) (h : exec i s = .next t) :
    t.cs = s.cs ∧ t.progBase = s.progBase ∧ t.progLen = s.progLen := by
  obtain ⟨op, -, rfl⟩ | ⟨sr, -, -, rfl⟩ | ⟨u, u', -, -, hw, hf, rfl⟩ := exec_next h
  · exact ⟨rfl, rfl, rfl⟩
  · exact ⟨rfl, rfl, rfl⟩
  · have hends := hw.ends hf i.byteLength
    exact ⟨hends.segs .cs, hends.progBase, hends.progLen hfit⟩

/-- The program is the same before and after: its place, its length and its bytes (70_reset_and_hazards.md R138). -/
def State.ProgramKept (s t : State) : Prop :=
  t.cs = s.cs ∧ t.progBase = s.progBase ∧ t.progLen = s.progLen ∧ ∀ k, k < s.progLen → t.programByte k = s.programByte k

/-- A fetched row keeps the program: it lies within it, so the place and the length stay, and its bytes are not written. -/
theorem exec_keeps_program {i : Instr} {s t : State} (hf : s.fetch = .ok i) (h : exec i s = .next t) : s.ProgramKept t := by
  obtain ⟨hcs, hbase, hlen⟩ := exec_keeps_window (fetch_fits hf) h
  refine ⟨hcs, hbase, hlen, fun k hk => ?_⟩
  rw [State.programByte, hcs, hbase]
  exact exec_readByte_program h (State.inProgram_programByte hk)

/-- Settles O47: a step runs a fetched row, or reads an override byte, which is decoder state, and runs the row fetched after it. -/
theorem stepKeepsTheProgram : Obligations.StepKeepsTheProgram := by
  intro s t hstep
  obtain ⟨-, i, hf, ⟨-, hx⟩ | ⟨sr, j, -, -, -, -, hj, hx⟩⟩ := step_next hstep
  · exact exec_keeps_program hf hx
  · exact exec_keeps_program (s := { s with ovr := some sr, prefixAlone := false }) hj hx

/-! ## Locations (R23, R25) -/

/-- "Segments overlap": the next segment value is 16 offsets further. -/
theorem phys_succ_segment (seg : Word) {off : Word} (h : 16 ≤ off.toNat) : phys (seg + 1) (off - 16) = phys seg off := by
  have hs := seg.isLt
  have ho := off.isLt
  have hoff : (off - 16).toNat = off.toNat - 16 := by bv_omega
  have hseg : (seg + 1).toNat = (seg.toNat + 1) % 65536 := by simp
  apply BitVec.eq_of_toNat_eq
  rw [phys_toNat, phys_toNat, hoff, hseg]
  omega

/-- Settles O23: the value of a location, the overlap of neighbouring segments, and that one segment's offsets do not meet. -/
theorem locationOfSegmentAndOffset : Obligations.LocationOfSegmentAndOffset :=
  ⟨phys_toNat, fun seg _ h => phys_succ_segment seg h, fun _ _ _ => phys_inj, by decide, by decide⟩

/-! ## Words (R26, R28) -/

@[simp] theorem State.loByte_segRead16 (s : State) (seg off : Word) : loByte (s.segRead16 seg off) = s.segRead8 seg off :=
  loByte_wordOf _ _

@[simp] theorem State.hiByte_segRead16 (s : State) (seg off : Word) : hiByte (s.segRead16 seg off) = s.segRead8 seg (off + 1) :=
  hiByte_wordOf _ _

/-- Settles O24: the word reads back, and its halves are the bytes read at the two offsets. -/
theorem wordByteOrder : Obligations.WordByteOrder := by
  intro s seg off v hwf
  have hword := State.segRead16_segWrite16_same hwf seg off v
  refine ⟨?_, ?_, hword, fun a h0 h1 => s.readByte_segWrite16_other v h0 h1⟩
  · rw [← State.loByte_segRead16, hword]
  · rw [← State.hiByte_segRead16, hword]

/-! ## Stores into the program (R37) -/

/-- A store with one of its bytes in the program hits the program. -/
theorem State.hitsProgram_of_inProgram {s : State} {seg off : Word} {n k : Nat} (hk : k < n)
    (h : s.inProgram (phys seg (off + BitVec.ofNat 16 k)) = true) : s.hitsProgram seg off n = true := by
  cases hhit : s.hitsProgram seg off n with
  | true => rfl
  | false => exact absurd rfl (State.ne_of_not_hitsProgram hhit hk h)

theorem State.writeEA8_hit {s : State} {off : Word} {d : SegReg} (h : s.inProgram (phys (s.eaSeg d) off) = true) (v : Byte) :
    s.writeEA8 (.mem off d) v = .refused .selfModifyingCode := by
  have hhit : s.hitsProgram (s.eaSeg d) off 1 = true := State.hitsProgram_of_inProgram (k := 0) (by decide) (by simpa using h)
  simp [State.writeEA8, hhit]

theorem State.writeEA16_hit {s : State} {off : Word} {d : SegReg}
    (h : s.inProgram (phys (s.eaSeg d) off) = true ∨ s.inProgram (phys (s.eaSeg d) (off + 1)) = true) (v : Word) :
    s.writeEA16 (.mem off d) v = .refused .selfModifyingCode := by
  have hhit : s.hitsProgram (s.eaSeg d) off 2 = true := by
    obtain h0 | h1 := h
    · exact State.hitsProgram_of_inProgram (k := 0) (by decide) (by simpa using h0)
    · exact State.hitsProgram_of_inProgram (k := 1) (by decide) h1
  simp [State.writeEA16, hhit]

@[simp] theorem andThen_refused (r : Refusal) (k : State → Res) : andThen (.refused r) k = .refused r := rfl

/-- Settles O38: each of the six is a store of its operand and then the rest, and the store is refused. -/
theorem storesIntoTheProgramRefused : Obligations.StoresIntoTheProgramRefused := by
  intro ea s off d ib iw r hea
  refine ⟨fun h => ?_, fun h => ?_⟩
  · have hstore := State.writeEA8_hit h
    simp only [exec, execSubEbIb, execIncEb, hea, hstore, andThen_refused, and_self]
  · have hstore := State.writeEA16_hit h
    simp only [exec, execAddEwRw, execMovEwRw, execMovEwIw, execIncEw, hea, hstore, andThen_refused, and_self]

/-! ## Doublewords (R28, R30) -/

/-- A 32-bit value is its two halves, least significant first. -/
theorem doubleword_halves (v : BitVec 32) :
    BitVec.ofNat 32 ((BitVec.ofNat 16 (v.toNat / 65536)).toNat * 65536 + (BitVec.ofNat 16 v.toNat).toNat) = v := by
  have h := v.isLt
  apply BitVec.eq_of_toNat_eq
  simp only [BitVec.toNat_ofNat]
  omega

theorem State.toNat_segRead16 (s : State) (seg off : Word) :
    (s.segRead16 seg off).toNat = (s.segRead8 seg (off + 1)).toNat * 256 + (s.segRead8 seg off).toNat := toNat_wordOf _ _

theorem State.toNat_segRead32 (s : State) (seg off : Word) :
    (s.segRead32 seg off).toNat = (s.segRead8 seg (off + 3)).toNat * 16777216 + (s.segRead8 seg (off + 2)).toNat * 65536 +
      (s.segRead8 seg (off + 1)).toNat * 256 + (s.segRead8 seg off).toNat := by
  have hlow := (s.segRead16 seg off).isLt
  have hhigh := (s.segRead16 seg (off + 2)).isLt
  have h3 : off + 2 + 1 = off + 3 := BitVec.add_assoc _ _ _
  have hval : (s.segRead32 seg off).toNat = (s.segRead16 seg (off + 2)).toNat * 65536 + (s.segRead16 seg off).toNat :=
    Nat.mod_eq_of_lt (by omega)
  rw [hval, s.toNat_segRead16, s.toNat_segRead16, h3]
  omega

/-- Byte `k` of a doubleword is the byte at the `k`th of four consecutive offsets, modulo 2^16. -/
theorem State.extractLsb'_segRead32 (s : State) (seg off : Word) {k : Nat} (hk : k < 4) :
    (s.segRead32 seg off).extractLsb' (8 * k) 8 = s.segRead8 seg (off + BitVec.ofNat 16 k) := by
  have b0 := (s.segRead8 seg off).isLt
  have b1 := (s.segRead8 seg (off + 1)).isLt
  have b2 := (s.segRead8 seg (off + 2)).isLt
  have b3 := (s.segRead8 seg (off + 3)).isLt
  apply BitVec.eq_of_toNat_eq
  rw [BitVec.extractLsb'_toNat, Nat.shiftRight_eq_div_pow, s.toNat_segRead32]
  obtain rfl | rfl | rfl | rfl : k = 0 ∨ k = 1 ∨ k = 2 ∨ k = 3 := by omega
  · rw [BitVec.add_zero]
    omega
  · change _ = (s.segRead8 seg (off + 1)).toNat
    omega
  · change _ = (s.segRead8 seg (off + 2)).toNat
    omega
  · change _ = (s.segRead8 seg (off + 3)).toNat
    omega

theorem State.segWrite32_eq (s : State) (seg off : Word) (v : BitVec 32) :
    s.segWrite32 seg off v =
      (s.segWrite16 seg off (BitVec.ofNat 16 v.toNat)).segWrite16 seg (off + 2) (BitVec.ofNat 16 (v.toNat / 65536)) := rfl

theorem State.segRead8_segWrite16_other (s : State) (seg : Word) {off o : Word} (v : Word) (h0 : o ≠ off) (h1 : o ≠ off + 1) :
    (s.segWrite16 seg off v).segRead8 seg o = s.segRead8 seg o :=
  s.readByte_segWrite16_other v (mt phys_inj h0) (mt phys_inj h1)

/-- The word two offsets further shares no byte with a word. -/
theorem State.segRead16_segWrite16_add_two (s : State) (seg off v : Word) :
    (s.segWrite16 seg (off + 2) v).segRead16 seg off = s.segRead16 seg off := by
  have hlow := s.segRead8_segWrite16_other seg (off := off + 2) (o := off) v (by bv_omega) (by bv_omega)
  have hhigh := s.segRead8_segWrite16_other seg (off := off + 2) (o := off + 1) v (by bv_omega) (by bv_omega)
  rw [State.segRead16, hlow, hhigh, State.segRead16]

/-- `SegWrite` then `SegRead` of the same doubleword (R28), the wrap at offset 0xFFFF included. -/
theorem State.segRead32_segWrite32_same {s : State} (h : s.mem.wf = true) (seg off : Word) (v : BitVec 32) :
    (s.segWrite32 seg off v).segRead32 seg off = v := by
  have hlow := State.segRead16_segWrite16_same h seg off (BitVec.ofNat 16 v.toNat)
  have hhigh := State.segRead16_segWrite16_same (State.wf_segWrite16 h seg off (BitVec.ofNat 16 v.toNat)) seg (off + 2)
    (BitVec.ofNat 16 (v.toNat / 65536))
  rw [State.segRead32, State.segWrite32_eq, hhigh, State.segRead16_segWrite16_add_two, hlow, doubleword_halves]

theorem State.readByte_segWrite32_other (s : State) {seg off : Word} (v : BitVec 32) {a : Loc}
    (h : ∀ k, k < 4 → a ≠ phys seg (off + BitVec.ofNat 16 k)) : (s.segWrite32 seg off v).readByte a = s.readByte a := by
  have h0 : a ≠ phys seg off := by simpa using h 0 (by decide)
  have h1 : a ≠ phys seg (off + 1) := h 1 (by decide)
  have h2 : a ≠ phys seg (off + 2) := h 2 (by decide)
  have h3 : a ≠ phys seg (off + 2 + 1) := by
    rw [BitVec.add_assoc]
    exact h 3 (by decide)
  rw [State.segWrite32_eq, State.readByte_segWrite16_other _ _ h2 h3, State.readByte_segWrite16_other _ _ h0 h1]

theorem State.writeEA32_mem {s : State} {off : Word} {d : SegReg} (h : s.Storable 4 (.mem off d)) (v : BitVec 32) :
    s.writeEA32 (.mem off d) v = .next (s.segWrite32 (s.eaSeg d) off v) := by
  have hhit : s.hitsProgram (s.eaSeg d) off 4 = false := h
  simp [State.writeEA32, hhit]

theorem State.writeEA32_hit {s : State} {off : Word} {d : SegReg} {k : Nat} (hk : k < 4)
    (h : s.inProgram (phys (s.eaSeg d) (off + BitVec.ofNat 16 k)) = true) (v : BitVec 32) :
    s.writeEA32 (.mem off d) v = .refused .selfModifyingCode := by
  simp [State.writeEA32, State.hitsProgram_of_inProgram hk h]

/-- Settles O25: the bytes of a stored doubleword are those of the value because it reads back whole, byte by byte as any doubleword. -/
theorem doublewordOperand : Obligations.DoublewordOperand := by
  refine ⟨fun s seg off k hk => s.extractLsb'_segRead32 seg off hk, fun s seg off v hwf => ?_, fun s seg off v => ?_,
    fun s off d v => ?_, fun s i v => ⟨rfl, rfl⟩⟩
  · have hback := State.segRead32_segWrite32_same hwf seg off v
    refine ⟨hback, fun k hk => ?_⟩
    rw [← State.extractLsb'_segRead32 _ seg off hk, hback]
  · exact ⟨rfl, fun a ha => s.readByte_segWrite32_other v ha⟩
  · exact ⟨rfl, fun h => State.writeEA32_mem h v, fun ⟨_, hk, h⟩ => State.writeEA32_hit hk h v⟩

end Sys2Proof.Machine
end

section
/-! What the decoder reads (30_encoding.md R40 to R54, R59): the rows' own bytes, the table of effective address byte values (R51), the
operand `[BP]` (R50), and the value of a displacement byte (R45). -/

namespace Sys2Proof

/-! ## Rows and their bytes -/

/-- Settles O1: the decoder reads back the bytes of every row, position by position. -/
theorem decodeEncodeRoundTrip : Obligations.DecodeEncodeRoundTrip := fun _ rest h => decode_encode h rest

/-- Settles O2: each piece of the decoder has read the bytes the encoder gives for what it answers. -/
theorem decodeOnlyReadsEncodings : Obligations.DecodeOnlyReadsEncodings := fun _ _ _ _ h => decode_ok h

/-- Settles O5: the bytes are the encoding of the instruction, and so decode to it. -/
theorem workedExampleBytes : Obligations.WorkedExampleBytes := by
  have henc : encode (.subEbIb (.sumD8 .bx 17) 100) = [0x80, 0x6F, 0x11, 0x64] := rfl
  exact ⟨henc ▸ decode_encode (i := .subEbIb (.sumD8 .bx 17) 100) rfl [], henc, rfl, rfl, rfl, rfl⟩

/-- Settles O6: each word is the encoding of the row it stands for, and so decodes to it. -/
theorem sampleWordsDecode : Obligations.SampleWordsDecode := by
  have read {i : Instr} (hw : i.wf = true) : decode i.position (encode i ++ []) = .ok (i, []) := decode_encode hw []
  exact ⟨read (i := .addEwRw (.reg .d6) .bp) rfl, read (i := .movRwEw .ax (.sumD8 .bxSi 5)) rfl,
    read (i := .movEwRw (.var 0x0100) .si) rfl, read (i := .movRbEb .bl (.sum .bx)) rfl,
    read (i := .movEwIw (.var 0x2000) 0) rfl, read (i := .incEb (.var 0x2000)) rfl, read (i := .incEw (.sumD8 .bp 4)) rfl,
    read (i := .segOverrideES) rfl, read (i := .segOverrideCS) rfl, read (i := .segOverrideSS) rfl,
    read (i := .segOverrideDS) rfl⟩

/-! ## The table of effective address byte values (R51) -/

/-- A byte value as the table lists it: the value in column 0 of the row, and 8 for each column. -/
theorem ofNat_eq_eabOf (m : Nat) (c rm : Digit) : BitVec.ofNat 8 (m * 64 + rm.num + 8 * c.num) = eabOf m c rm := by
  rw [eabOf, Nat.mul_comm 8, Nat.add_right_comm]

/-- A row of the table is read where the encoder gives its byte value, and leaves the bytes after the displacement. -/
theorem decode_eaByte_row {m : Nat} {c rm : Digit} {ea : Ea} {disp : List Byte} (hw : ea.wf = true)
    (he : encodeEa c ea = eabOf m c rm :: disp) (bs : List Byte) :
    decode .eaByte (BitVec.ofNat 8 (m * 64 + rm.num + 8 * c.num) :: disp ++ bs) = .ok (Instr.ofEa c ea, bs) := by
  rw [ofNat_eq_eabOf, ← he]
  exact decodeForm_encodeEa c hw bs

theorem decode_eaByte_sum (c : Digit) {r : RegSum} (h : r ≠ .bp) (bs : List Byte) :
    decode .eaByte (BitVec.ofNat 8 (0x00 + r.digit.num + 8 * c.num) :: bs) = .ok (Instr.ofEa c (.sum r), bs) :=
  decode_eaByte_row (m := 0) (ea := .sum r) (disp := []) (by simpa [Ea.wf] using h) rfl bs

theorem decode_eaByte_var (c : Digit) (n0 n1 : Byte) (bs : List Byte) :
    decode .eaByte (BitVec.ofNat 8 (0x06 + 8 * c.num) :: n0 :: n1 :: bs) = .ok (.eaVar c (wordOf n0 n1), bs) :=
  decode_eaByte_row (m := 0) (rm := .d6) (ea := .var (wordOf n0 n1)) (disp := [n0, n1]) rfl (by simp [encodeEa]) bs

theorem decode_eaByte_sumD8 (c : Digit) (r : RegSum) (n0 : Byte) (bs : List Byte) :
    decode .eaByte (BitVec.ofNat 8 (0x40 + r.digit.num + 8 * c.num) :: n0 :: bs) = .ok (Instr.ofEa c (.sumD8 r n0), bs) :=
  decode_eaByte_row (m := 1) (disp := [n0]) rfl rfl bs

theorem decode_eaByte_sumD16 (c : Digit) (r : RegSum) (n0 n1 : Byte) (bs : List Byte) :
    decode .eaByte (BitVec.ofNat 8 (0x80 + r.digit.num + 8 * c.num) :: n0 :: n1 :: bs) =
      .ok (Instr.ofEa c (.sumD16 r (wordOf n0 n1)), bs) :=
  decode_eaByte_row (m := 2) (disp := [n0, n1]) rfl (by simp [encodeEa]) bs

theorem decode_eaByte_reg (c i : Digit) (bs : List Byte) :
    decode .eaByte (BitVec.ofNat 8 (0xC0 + i.num + 8 * c.num) :: bs) = .ok (Instr.ofEa c (.reg i), bs) :=
  decode_eaByte_row (m := 3) (disp := []) rfl rfl bs

/-- "Every value from `00` to `FF` occurs exactly once" (R51): the three fields of a byte give its value, and no others do. -/
theorem eabOf_unique (b : Byte) : ∃ (m : Fin 4) (c rm : Digit), b = eabOf m c rm ∧
    ∀ (m' : Fin 4) (c' rm' : Digit), b = eabOf m' c' rm' → m' = m ∧ c' = c ∧ rm' = rm := by
  refine ⟨⟨eabMod b, eabMod_lt b⟩, eabColumn b, eabRm b, (eabOf_fields b).symm, ?_⟩
  rintro m' c' rm' rfl
  exact ⟨Fin.ext (eabMod_eabOf m'.isLt c' rm').symm, (eabColumn_eabOf m'.isLt c' rm').symm, (eabRm_eabOf m'.isLt c' rm').symm⟩

/-- Settles O4: the rows of `mod` 0, 1, 2 and 3 by the lemma of their form, the header lines by the definitions. -/
theorem effectiveAddressTable : Obligations.EffectiveAddressTable := by
  refine ⟨fun c n0 n1 rest => ?_, Machine.toNat_wordOf, eabOf_unique, rfl, rfl, rfl, rfl, rfl⟩
  have sum {r : RegSum} (h : r ≠ .bp) := decode_eaByte_sum c h (n0 :: n1 :: rest)
  have sumD8 (r : RegSum) := decode_eaByte_sumD8 c r n0 (n1 :: rest)
  have sumD16 (r : RegSum) := decode_eaByte_sumD16 c r n0 n1 rest
  have reg (i : Digit) := decode_eaByte_reg c i (n0 :: n1 :: rest)
  exact ⟨sum (r := .bxSi) nofun, sum (r := .bxDi) nofun, sum (r := .bpSi) nofun, sum (r := .bpDi) nofun,
    sum (r := .si) nofun, sum (r := .di) nofun, decode_eaByte_var c n0 n1 rest, sum (r := .bx) nofun,
    sumD8 .bxSi, sumD8 .bxDi, sumD8 .bpSi, sumD8 .bpDi, sumD8 .si, sumD8 .di, sumD8 .bp, sumD8 .bx,
    sumD16 .bxSi, sumD16 .bxDi, sumD16 .bpSi, sumD16 .bpDi, sumD16 .si, sumD16 .di, sumD16 .bp, sumD16 .bx,
    reg .d0, reg .d1, reg .d2, reg .d3, reg .d4, reg .d5, reg .d6, reg .d7⟩

/-- Settles O10: the bytes are the encoder's with the column's value written out, the reading is the table's, and a displacement of
zero adds nothing to `BP`. -/
theorem bpWithoutDisplacement : Obligations.BpWithoutDisplacement := by
  have hd8 (c : Digit) : eabOf 1 c .d6 = BitVec.ofNat 8 (0x46 + 8 * c.num) := (ofNat_eq_eabOf 1 c .d6).symm
  have hvar (c : Digit) : eabOf 0 c .d6 = BitVec.ofNat 8 (0x06 + 8 * c.num) := (ofNat_eq_eabOf 0 c .d6).symm
  have hoff (s : Machine.State) : s.bp + (0 : Byte).signExtend 16 = s.bp := by simp
  exact ⟨rfl, rfl, fun c => hd8 c ▸ rfl, fun c _ => hvar c ▸ rfl,
    fun c n0 n1 rest => ⟨decode_eaByte_var c n0 n1 rest, decode_eaByte_sumD8 c .bp 0 rest⟩,
    fun s => congrArg (Operand.mem · .ss) (hoff s)⟩

/-! ## The displacement byte (R45) -/

theorem toNat_signExtend_byte (b : Byte) : (b.signExtend 16).toNat = if b.toNat < 0x80 then b.toNat else 0xFF00 + b.toNat := by
  have hlt := b.isLt
  rw [BitVec.toNat_signExtend, BitVec.toNat_setWidth, BitVec.msb_eq_decide]
  simp only [decide_eq_true_eq]
  split <;> split <;> omega

/-- Settles O21: the value is sign extension's on numbers below and from 0x80 on, the sum is `DecodeEA`'s own. -/
theorem displacementByteIsSigned : Obligations.DisplacementByteIsSigned := fun b _ _ =>
  ⟨toNat_signExtend_byte b, BitVec.toInt_signExtend_of_le (by decide), BitVec.le_toInt b,
    Int.le_of_lt_add_one (BitVec.toInt_lt (x := b)), rfl⟩

end Sys2Proof
end

section
/-! Where the bytes are no row: the two causes of `opcode_not_in_table` (30_encoding.md R53, 41_instructions.md R119; log entry 32), and
that bytes that end inside a row are `truncated` (70_reset_and_hazards.md R138). -/

namespace Sys2Proof

/-! ## Opcode bytes and digits -/

theorem opcodeKnown_iff {op : Byte} : opcodeKnown op = true ↔ op ∈ [0x80, 0x01, 0x8B, 0x89, 0x8A, 0xC7, 0xFE, 0xFF] := by
  simp [opcodeKnown, instrTable, eq_comm (b := op)]

theorem overrideOf_eq_none {b : Byte} (h : b ∉ [0x26, 0x2E, 0x36, 0x3E]) : overrideOf b = none := by
  cases ho : overrideOf b with
  | none => rfl
  | some sr =>
    rw [overrideOf_eq_some ho] at h
    cases sr <;> exact absurd (by decide) h

theorem overrideOf_of_opcodeKnown {op : Byte} (h : opcodeKnown op = true) : overrideOf op = none := by
  apply overrideOf_eq_none
  rw [opcodeKnown_iff] at h
  revert op
  decide

theorem findRow_sub {c : Digit} (h : c ≠ .d5) : findRow 0x80 c = none := by
  cases c with
  | d5 => exact absurd rfl h
  | _ => rfl

theorem findRow_digit_zero {op : Byte} {c : Digit} (hop : op ∈ [0xC7, 0xFE, 0xFF]) (h : c ≠ .d0) : findRow op c = none := by
  simp only [List.mem_cons, List.not_mem_nil, or_false] at hop
  obtain rfl | rfl | rfl := hop <;> cases c with
  | d0 => exact absurd rfl h
  | _ => rfl

/-! ## The causes of `opcode_not_in_table` -/

/-- Bytes that begin with no row's opcode byte, or with one and a column it has no row for (R119). -/
def NoRow (bs : List Byte) : Prop :=
  ∃ op bs', bs = op :: bs' ∧ overrideOf op = none ∧
    (opcodeKnown op = false ∨ ∃ eab bs'', bs' = eab :: bs'' ∧ findRow op (eabColumn eab) = none)

/-- More bytes do not mend it. -/
theorem NoRow.append {bs : List Byte} (h : NoRow bs) (more : List Byte) : NoRow (bs ++ more) := by
  obtain ⟨op, bs', rfl, ho, hk | ⟨eab, bs'', rfl, hf⟩⟩ := h
  · exact ⟨op, bs' ++ more, rfl, ho, .inl hk⟩
  · exact ⟨op, eab :: bs'' ++ more, rfl, ho, .inr ⟨eab, bs'' ++ more, rfl, hf⟩⟩

theorem withByte_opcodeNotInTable {α : Type} {bs : List Byte} {k : Byte → List Byte → Decoded α}
    (h : withByte bs k = .error .opcodeNotInTable) : ∃ b bs', bs = b :: bs' ∧ k b bs' = .error .opcodeNotInTable := by
  cases bs with
  | nil => cases h
  | cons b bs => exact ⟨b, bs, rfl, h⟩

theorem withWord_opcodeNotInTable {α : Type} {bs : List Byte} {k : Word → List Byte → Decoded α}
    (h : withWord bs k = .error .opcodeNotInTable) : ∃ w bs', k w bs' = .error .opcodeNotInTable := by
  obtain ⟨b0, bs0, rfl, h0⟩ := withByte_opcodeNotInTable h
  obtain ⟨b1, bs1, rfl, h1⟩ := withByte_opcodeNotInTable h0
  exact ⟨wordOf b0 b1, bs1, h1⟩

/-- Reading a displacement adds no cause of its own. -/
theorem withDisp_opcodeNotInTable {α : Type} {eab : Byte} {bs : List Byte} {k : Ea → List Byte → Decoded α}
    (h : withDisp eab bs k = .error .opcodeNotInTable) : ∃ ea bs', k ea bs' = .error .opcodeNotInTable := by
  unfold withDisp at h
  split at h
  · split at h
    · obtain ⟨w, bs', hk⟩ := withWord_opcodeNotInTable h
      exact ⟨.var w, bs', hk⟩
    · exact ⟨_, bs, h⟩
  · obtain ⟨d, bs', -, hk⟩ := withByte_opcodeNotInTable h
    exact ⟨_, bs', hk⟩
  · obtain ⟨w, bs', hk⟩ := withWord_opcodeNotInTable h
    exact ⟨_, bs', hk⟩
  · exact ⟨_, bs, h⟩

theorem build_ne_opcodeNotInTable (kind : OpKind) (c : Digit) (ea : Ea) (bs : List Byte) :
    kind.build c ea bs ≠ .error .opcodeNotInTable := by
  intro h
  cases kind with
  | subEbIb =>
    obtain ⟨b, bs', -, hb⟩ := withByte_opcodeNotInTable h
    cases hb
  | movEwIw =>
    obtain ⟨w, bs', hw⟩ := withWord_opcodeNotInTable (k := fun iw bs => .ok (Instr.movEwIw ea iw, bs)) h
    cases hw
  | _ => cases h

/-- Every effective address byte is an operand form (R51), so its position never gives this refusal. -/
theorem decodeForm_ne_opcodeNotInTable (bs : List Byte) : decodeForm bs ≠ .error .opcodeNotInTable := by
  intro h
  obtain ⟨eab, bs', -, hd⟩ := withByte_opcodeNotInTable h
  obtain ⟨ea, bs'', hk⟩ := withDisp_opcodeNotInTable hd
  cases hk

theorem decodeOp_opcodeNotInTable_iff {op : Byte} {bs : List Byte} : decodeOp op bs = .error .opcodeNotInTable ↔
    opcodeKnown op = false ∨ ∃ eab bs', bs = eab :: bs' ∧ findRow op (eabColumn eab) = none := by
  constructor
  · intro h
    unfold decodeOp at h
    split at h
    · obtain ⟨eab, bs', rfl, hf⟩ := withByte_opcodeNotInTable h
      split at hf
      · exact .inr ⟨eab, bs', rfl, ‹_›⟩
      · obtain ⟨ea, bs'', hk⟩ := withDisp_opcodeNotInTable hf
        exact absurd hk (build_ne_opcodeNotInTable _ _ _ _)
    · exact .inl (by simpa using ‹¬ opcodeKnown op = true›)
  · rintro (hk | ⟨eab, bs', rfl, hf⟩)
    · simp [decodeOp, hk]
    · simp [decodeOp, hf]

/-- The decoder answers `opcodeNotInTable` where an opcode byte is expected and the bytes have no row, and nowhere else. -/
theorem decode_opcodeNotInTable_iff {p : Position} {bs : List Byte} :
    decode p bs = .error .opcodeNotInTable ↔ p = .opcodeByte ∧ NoRow bs := by
  cases p with
  | eaByte => simpa [decode] using decodeForm_ne_opcodeNotInTable bs
  | opcodeByte =>
    constructor
    · intro h
      obtain ⟨op, bs', rfl, hop⟩ := withByte_opcodeNotInTable h
      split at hop
      · cases hop
      · exact ⟨rfl, op, bs', rfl, ‹_›, decodeOp_opcodeNotInTable_iff.1 hop⟩
    · rintro ⟨-, op, bs', rfl, ho, hno⟩
      simpa [decode, decodeOpcode, ho] using decodeOp_opcodeNotInTable_iff.2 hno

theorem decode_unknown_opcode {op : Byte} (hk : op ∉ [0x80, 0x01, 0x8B, 0x89, 0x8A, 0xC7, 0xFE, 0xFF])
    (ho : op ∉ [0x26, 0x2E, 0x36, 0x3E]) (rest : List Byte) : decode .opcodeByte (op :: rest) = .error .opcodeNotInTable := by
  rw [← opcodeKnown_iff, Bool.not_eq_true] at hk
  exact decode_opcodeNotInTable_iff.2 ⟨rfl, op, rest, rfl, overrideOf_eq_none ho, .inl hk⟩

theorem decode_missing_digit {op eab : Byte} (hk : opcodeKnown op = true) (hf : findRow op (eabColumn eab) = none)
    (rest : List Byte) : decode .opcodeByte (op :: eab :: rest) = .error .opcodeNotInTable :=
  decode_opcodeNotInTable_iff.2 ⟨rfl, op, eab :: rest, rfl, overrideOf_of_opcodeKnown hk, .inr ⟨eab, rest, rfl, hf⟩⟩

theorem decode_sub_missing_digit {eab : Byte} (h : eabColumn eab ≠ .d5) (rest : List Byte) :
    decode .opcodeByte (0x80 :: eab :: rest) = .error .opcodeNotInTable :=
  decode_missing_digit rfl (findRow_sub h) rest

theorem decode_digit_zero_missing {op eab : Byte} (hop : op ∈ [0xC7, 0xFE, 0xFF]) (h : eabColumn eab ≠ .d0) (rest : List Byte) :
    decode .opcodeByte (op :: eab :: rest) = .error .opcodeNotInTable := by
  have hk : opcodeKnown op = true := opcodeKnown_iff.2 (by revert op; decide)
  exact decode_missing_digit hk (findRow_digit_zero hop h) rest

/-- Settles O7: the one cause by the opcode byte, the other by the column. -/
theorem opcodeWithoutRowRefused : Obligations.OpcodeWithoutRowRefused :=
  ⟨fun _ rest hk ho => decode_unknown_opcode hk ho rest, fun _ rest h => decode_sub_missing_digit h rest,
    fun _ _ rest hop h => decode_digit_zero_missing hop h rest⟩

/-! ## Bytes that end inside a row (R138) -/

/-- A row cut short is `truncated`: were it read as a row, or refused, so would the whole row be, and that is read as itself. -/
theorem decode_take_encode {i : Instr} (hw : i.wf = true) {n : Nat} (hn : n < (encode i).length) :
    decode i.position ((encode i).take n) = .error .truncated := by
  have hwhole : decode i.position ((encode i).take n ++ (encode i).drop n) = .ok (i, []) := by
    simpa using decode_encode hw []
  cases hcut : decode i.position ((encode i).take n) with
  | ok x =>
    obtain ⟨j, rest⟩ := x
    obtain ⟨hwj, hp, hb⟩ := decode_ok hcut
    rw [hb, List.append_assoc, ← hp, decode_encode hwj] at hwhole
    have hdrop : (encode i).drop n = [] := by
      simp only [Except.ok.injEq, Prod.mk.injEq, List.append_eq_nil_iff] at hwhole
      exact hwhole.2.2
    rw [List.drop_eq_nil_iff] at hdrop
    omega
  | error e => cases e with
    | truncated => rfl
    | opcodeNotInTable =>
      obtain ⟨hp, hno⟩ := decode_opcodeNotInTable_iff.1 hcut
      rw [decode_opcodeNotInTable_iff.2 ⟨hp, hno.append _⟩] at hwhole
      cases hwhole

/-- A row's opcode byte alone. -/
theorem decode_opcode_alone {op : Byte} (h : op ∈ [0x80, 0x01, 0x8B, 0x89, 0x8A, 0xC7, 0xFE, 0xFF]) :
    decode .opcodeByte [op] = .error .truncated := by
  have hk := opcodeKnown_iff.2 h
  simp [decode, decodeOpcode, decodeOp, overrideOf_of_opcodeKnown hk, hk, withByte]

end Sys2Proof
end

section
/-! The segment override bytes by themselves (30_encoding.md R54, R55), and the step where the bytes at `ip` are no instruction
(41_instructions.md R119, 60_exceptions.md R121, 70_reset_and_hazards.md R138). -/

namespace Sys2Proof.Machine

/-- Settles O37: the four bytes are the rows of their segment registers, and each row is `State.override`. -/
theorem overrideBytesComplete : Obligations.OverrideBytesComplete := by
  intro s
  refine ⟨fun ho => ?_, fun sr hsr => ?_⟩
  · have taken (q : SegReg) := (exec_prefixInstr q s).trans (State.override_of_none ho q)
    exact ⟨taken .es, taken .cs, taken .ss, taken .ds⟩
  · have refused (q : SegReg) := (exec_prefixInstr q s).trans (State.override_of_some (by simp [hsr]) q)
    exact ⟨refused .es, refused .cs, refused .ss, refused .ds⟩

/-! ## The bytes left of the program -/

/-- The bytes the decoder reads first, in a program that has them. -/
theorem State.codeBytes_eq_range_append {s : State} {m : Nat} (hm : m ≤ longestInstr) (hfit : s.prefixLen + m ≤ s.progLeft) :
    ∃ rest, s.codeBytes = ((List.range m).map fun k => s.codeByte (s.prefixLen + k)) ++ rest := by
  refine State.codeBytes_eq_append (by simpa using hm) (by simpa using hfit) fun k b hk => ?_
  simp only [List.getElem?_map, Option.map_eq_some_iff] at hk
  obtain ⟨j, hj, rfl⟩ := hk
  obtain ⟨-, rfl⟩ := List.getElem?_eq_some_iff.1 hj
  rw [List.getElem_range]

/-- Where the program ends with these bytes, they are all the decoder reads. -/
theorem State.codeBytes_eq_of_last {s : State} {bs : List Byte} (hl : bs.length ≤ longestInstr)
    (hlast : s.progLeft = s.prefixLen + bs.length) (hb : ∀ k b, bs[k]? = some b → s.codeByte (s.prefixLen + k) = b) :
    s.codeBytes = bs := by
  obtain ⟨rest, hrest⟩ := State.codeBytes_eq_append hl (Nat.le_of_eq hlast.symm) hb
  have hlen := congrArg List.length hrest
  rw [s.length_codeBytes, List.length_append] at hlen
  have hnil : rest = [] := List.eq_nil_of_length_eq_zero (by omega)
  rw [hrest, hnil, List.append_nil]

/-- Where the program ends with the first bytes of an instruction, the decoder finds the end. -/
theorem State.decode_of_cut_instruction {s : State} {i : Instr} {n : Nat} (hi : IsInstruction i) (hn : n < (encode i).length)
    (hp : s.expects = .opcodeByte) (hlast : s.progLeft = s.prefixLen + n)
    (hb : ∀ k b, k < n → (encode i)[k]? = some b → s.codeByte (s.prefixLen + k) = b) :
    decode s.expects s.codeBytes = .error .truncated := by
  obtain ⟨hw, hpos, -⟩ := hi
  obtain ⟨hlen, -, hmax⟩ := encode_length i
  have htake : ((encode i).take n).length = n := List.length_take_of_le (Nat.le_of_lt hn)
  have hmax' : ((encode i).take n).length ≤ longestInstr := by
    simp only [longestInstr]
    omega
  rw [State.codeBytes_eq_of_last hmax' (htake.symm ▸ hlast), hp, ← hpos, decode_take_encode hw hn]
  intro k b hk
  rw [List.getElem?_take] at hk
  split at hk
  · exact hb k b ‹_› hk
  · cases hk

/-! ## The step -/

theorem State.fetch_of_decode_error {s : State} {e : DecodeError} (h : decode s.expects s.codeBytes = .error e) :
    s.fetch = .error (refusalOf e) := by
  simp only [State.fetch, h]

theorem step_of_decode_error {s : State} {e : DecodeError} (hr : s.runEnded = false)
    (h : decode s.expects s.codeBytes = .error e) : step s = .refused (refusalOf e) := by
  simp [step, hr, runInstr, State.fetch_of_decode_error h]

theorem State.not_runEnded_of_progLeft {s : State} (h : 0 < s.progLeft) : s.runEnded = false := by
  simp [State.runEnded, Nat.ne_of_gt h]

/-- An override byte, and no row after it: the step that read the byte goes on to the refusal (R54). -/
theorem step_of_override_then_decode_error {s : State} {sr : SegReg} {rest : List Byte} {e : DecodeError} (ho : s.ovr = none)
    (ha : s.prefixAlone = false) (hd : decode s.expects s.codeBytes = .ok (prefixInstr sr, rest))
    (he : decode .opcodeByte (State.codeBytes { s with ovr := some sr }) = .error e) : step s = .refused (refusalOf e) := by
  obtain ⟨-, hp, -⟩ := decode_ok hd
  rw [← prefixInstr_position sr, hp] at he
  have hj : State.fetch { s with ovr := some sr, prefixAlone := false } = .error (refusalOf e) :=
    State.fetch_of_decode_error (s := { s with ovr := some sr, prefixAlone := false }) he
  rw [step_of_fetch (State.fetch_of_decode hd), prefixInstr_isOverride, ha, exec_prefixInstr, State.override_of_none ho]
  simp [runRow, hj]

/-- Settles O43: the decoder's reason is the step's, and the program's first bytes decide the decoder's reason. -/
theorem unknownOpcodeStopsTheStep : Obligations.UnknownOpcodeStopsTheStep := by
  refine ⟨rfl, rfl, fun s => ⟨fun e hr h => step_of_decode_error hr h,
    fun sr rest e ho ha hd he => step_of_override_then_decode_error ho ha hd he, fun hp hleft => ?_, fun hp hleft => ?_⟩⟩
  · have hstep {e : DecodeError} (h : decode .opcodeByte s.codeBytes = .error e) : step s = .refused (refusalOf e) :=
      step_of_decode_error (State.not_runEnded_of_progLeft (Nat.zero_lt_of_lt hleft)) (hp ▸ h)
    refine ⟨fun hk ho => hstep (e := .opcodeNotInTable) ?_, fun hop hlast => hstep (e := .truncated) ?_⟩
    · obtain ⟨rest, hb⟩ := s.codeBytes_eq_range_append (m := 1) (by decide) hleft
      rw [hb]
      exact decode_unknown_opcode hk ho rest
    · rw [State.codeBytes_eq_of_last (bs := [s.codeByte s.prefixLen]) (by simp [longestInstr]) hlast]
      · exact decode_opcode_alone hop
      · intro k b hk
        obtain ⟨hk1, rfl⟩ := List.getElem?_eq_some_iff.1 hk
        obtain rfl : k = 0 := by simpa using hk1
        rfl
  · obtain ⟨rest, hb⟩ := s.codeBytes_eq_range_append (m := 2) (by decide) hleft
    have hstep (h : decode .opcodeByte (s.codeByte s.prefixLen :: s.codeByte (s.prefixLen + 1) :: rest) = .error .opcodeNotInTable) :
        step s = .refused (refusalOf .opcodeNotInTable) :=
      step_of_decode_error (State.not_runEnded_of_progLeft (Nat.zero_lt_of_lt hleft)) (by rw [hp, hb]; exact h)
    refine ⟨fun hop h => hstep ?_, fun hop h => hstep (decode_digit_zero_missing hop h rest)⟩
    rw [hop]
    exact decode_sub_missing_digit h rest

/-- Settles O58: with an instruction first the decoder finds the end at once; past an override byte the same step goes on to find it. -/
theorem truncatedInstructionStopsTheStep : Obligations.TruncatedInstructionStopsTheStep := by
  intro s i n hi hn hp
  refine ⟨fun hlast hleft hb => ?_, fun sr ho ha hlast h0 hb => ?_⟩
  · exact step_of_decode_error (State.not_runEnded_of_progLeft hleft) (State.decode_of_cut_instruction hi hn hp hlast hb)
  · have hlen := State.prefixLen_of_none ho
    obtain ⟨rest, hfirst⟩ := s.codeBytes_eq_range_append (m := 1) (by decide) (by omega)
    have hd : decode s.expects s.codeBytes = .ok (prefixInstr sr, rest) := by
      have hbyte : s.codeByte (s.prefixLen + 0) = Config.overrideBytes sr := by rw [hlen, h0]
      rw [hp, hfirst, List.range_one, List.map_singleton, hbyte]
      exact decodeOpcode_override sr rest
    have he := State.decode_of_cut_instruction (s := { s with ovr := some sr }) hi hn hp hlast hb
    exact step_of_override_then_decode_error ho ha hd (hp ▸ he)

end Sys2Proof.Machine
end

section
/-! The effective-address operand (40_effective_address.md R61 to R102): what an operand-form row yields, the pseudocode of `DecodeEA`
against the decoder, the segment a memory operand uses, and the encodings an operand has. -/

namespace Sys2Proof.Machine

/-! ## The operand-form rows (R62 to R93) -/

/-- Settles O12: a row keeps the operand it stands for. -/
theorem formRowsAgreeWithDecodeEA : Obligations.FormRowsAgreeWithDecodeEA := fun c _ s h => exec_ofEa c h s

/-- Settles O13: the eight rows are those of the sums but `[BP]`, and of the variable. -/
theorem formsWithoutDisplacement : Obligations.FormsWithoutDisplacement := by
  intro c d s
  have row {r : RegSum} (h : (Ea.sum r).wf = true) := formRowsAgreeWithDecodeEA c (.sum r) s h
  have var := formRowsAgreeWithDecodeEA c (.var d) s rfl
  exact ⟨row (r := .bxSi) rfl, row (r := .bxDi) rfl, row (r := .bpSi) rfl, row (r := .bpDi) rfl, row (r := .si) rfl,
    row (r := .di) rfl, var, row (r := .bx) rfl⟩

/-- Settles O14: each row is that of its sum and the byte. -/
theorem formsWithByteDisplacement : Obligations.FormsWithByteDisplacement := by
  intro c d s
  have row (r : RegSum) := formRowsAgreeWithDecodeEA c (.sumD8 r d) s rfl
  exact ⟨row .bxSi, row .bxDi, row .bpSi, row .bpDi, row .si, row .di, row .bp, row .bx⟩

/-- Settles O15: each row is that of its sum and the word. -/
theorem formsWithWordDisplacement : Obligations.FormsWithWordDisplacement := by
  intro c d s
  have row (r : RegSum) := formRowsAgreeWithDecodeEA c (.sumD16 r d) s rfl
  exact ⟨row .bxSi, row .bxDi, row .bpSi, row .bpDi, row .si, row .di, row .bp, row .bx⟩

/-- Settles O16: each row is that of its number, and `ReadEA` reads a number as the register of that number. -/
theorem registerForms : Obligations.RegisterForms := by
  intro c s
  have row (i : Digit) := formRowsAgreeWithDecodeEA c (.reg i) s rfl
  exact ⟨row .d0, row .d1, row .d2, row .d3, row .d4, row .d5, row .d6, row .d7, rfl, rfl, fun _ => ⟨rfl, rfl⟩⟩

/-! ## The pseudocode of `DecodeEA` (R61) -/

theorem extractLsb'_mod (eab : Byte) : eab.extractLsb' 6 2 = BitVec.ofNat 2 (eabMod eab) := by
  apply BitVec.eq_of_toNat_eq
  simp [eabMod, BitVec.extractLsb'_toNat, Nat.shiftRight_eq_div_pow]

theorem num_eabRm (eab : Byte) : (eabRm eab).num = eab.toNat % 8 := Digit.num_ofNum (Nat.mod_lt _ (by decide))

theorem extractLsb'_rm (eab : Byte) : eab.extractLsb' 0 3 = BitVec.ofNat 3 (eabRm eab).num := by
  apply BitVec.eq_of_toNat_eq
  simp [num_eabRm, BitVec.extractLsb'_toNat]

/-- The pseudocode in the terms of the model: the fields of the byte, the register sums and their default segments. Each of the 32 pairs
of `mod` and `rm` decides every condition of both sides. -/
theorem pseudoDecodeEA_eq (s : State) (eab n0 n1 : Byte) :
    pseudoDecodeEA s eab n0 n1 =
      if eabMod eab = 3 then .reg (eabRm eab)
      else if eabMod eab = 0 ∧ eabRm eab = .d6 then .mem (wordOf n0 n1) .ds
      else .mem (s.sumValue (eabRm eab).regSum +
          if eabMod eab = 0 then 0 else if eabMod eab = 1 then n0.signExtend 16 else wordOf n0 n1)
        (sumSeg (eabRm eab).regSum) := by
  have hm := eabMod_lt eab
  simp only [pseudoDecodeEA, extractLsb'_mod, extractLsb'_rm]
  generalize eabMod eab = m at *
  generalize eabRm eab = rm at *
  obtain rfl | rfl | rfl | rfl : m = 0 ∨ m = 1 ∨ m = 2 ∨ m = 3 := by omega
  all_goals cases rm <;> rfl

/-- An effective address byte and two bytes after it are always read as an operand, and it is the pseudocode's. -/
theorem decode_eaByte_operand (eab n0 n1 : Byte) (rest : List Byte) : ∃ (ea : Ea) (rest' : List Byte), ea.wf = true ∧
    decode .eaByte (eab :: n0 :: n1 :: rest) = .ok (Instr.ofEa (eabColumn eab) ea, rest') ∧
    ∀ s, decodeEA ea s = pseudoDecodeEA s eab n0 n1 := by
  have read {ea : Ea} {disp : List Byte} (hw : ea.wf = true) (he : encodeEa (eabColumn eab) ea = eab :: disp) (bs : List Byte) :
      decode .eaByte (eab :: disp ++ bs) = .ok (Instr.ofEa (eabColumn eab) ea, bs) :=
    he ▸ decodeForm_encodeEa (eabColumn eab) hw bs
  have hf := eabOf_fields eab
  have hlt := eabMod_lt eab
  obtain hm | hm | hm | hm : eabMod eab = 0 ∨ eabMod eab = 1 ∨ eabMod eab = 2 ∨ eabMod eab = 3 := by omega
  all_goals rw [hm] at hf
  · by_cases hr : eabRm eab = .d6
    · rw [hr] at hf
      exact ⟨.var (wordOf n0 n1), rest, rfl, read (disp := [n0, n1]) rfl (by simp [encodeEa, hf]) rest,
        fun s => by simp [pseudoDecodeEA_eq, hm, hr, decodeEA]⟩
    · have hw : (Ea.sum (eabRm eab).regSum).wf = true := by
        simpa [Ea.wf] using fun h => hr ((eabRm eab).regSum_digit ▸ congrArg RegSum.digit h)
      exact ⟨.sum (eabRm eab).regSum, n0 :: n1 :: rest, hw, read (disp := []) hw (by simp [encodeEa, hf]) _,
        fun s => by simp [pseudoDecodeEA_eq, hm, hr, decodeEA]⟩
  · exact ⟨.sumD8 (eabRm eab).regSum n0, n1 :: rest, rfl, read (disp := [n0]) rfl (by simp [encodeEa, hf]) _,
      fun s => by simp [pseudoDecodeEA_eq, hm, decodeEA]⟩
  · exact ⟨.sumD16 (eabRm eab).regSum (wordOf n0 n1), rest, rfl, read (disp := [n0, n1]) rfl (by simp [encodeEa, hf]) rest,
      fun s => by simp [pseudoDecodeEA_eq, hm, decodeEA]⟩
  · exact ⟨.reg (eabRm eab), n0 :: n1 :: rest, rfl, read (disp := []) rfl (by simp [encodeEa, hf]) _,
      fun s => by simp [pseudoDecodeEA_eq, hm, decodeEA]⟩

/-- Settles O11: the decoder reads the operand the pseudocode computes, and its row keeps it. -/
theorem decodeEaMeetsPseudocode : Obligations.DecodeEaMeetsPseudocode := by
  intro s eab n0 n1 rest
  obtain ⟨ea, rest', hw, hd, hop⟩ := decode_eaByte_operand eab n0 n1 rest
  exact ⟨ea, rest', hd, hop s, hop s ▸ exec_ofEa _ hw s⟩

/-! ## The segment of a memory operand (R94, R95) -/

/-- R94's condition on the fields of the byte: the sums that contain `BP`, but for the variable in the place of `[BP]`. -/
theorem defaultSeg_of_fields (m : Nat) (rm : Digit) :
    (if m = 0 ∧ rm = .d6 then SegReg.ds else sumSeg rm.regSum) =
      if rm.num = 2 ∨ rm.num = 3 ∨ (rm.num = 6 ∧ m ≠ 0) then .ss else .ds := by
  cases rm <;> simp [Digit.num, Digit.regSum, sumSeg]

/-- Settles O17: the operand is the pseudocode's, which names the default segment by the fields of the byte. -/
theorem defaultSegmentRegister : Obligations.DefaultSegmentRegister := by
  intro s eab n0 n1 rest i rest' h
  obtain ⟨ea, _, hw, hd, hop⟩ := decode_eaByte_operand eab n0 n1 rest
  cases hd.symm.trans h
  refine ⟨_, exec_ofEa _ hw s, fun h3 => ⟨eabRm eab, ?_⟩, fun h3 => ?_⟩ <;> rw [hop, pseudoDecodeEA_eq]
  · exact if_pos h3
  · rw [if_neg (show eabMod eab ≠ 3 from h3), ← num_eabRm, ← eabMod, ← defaultSeg_of_fields]
    split
    · exact ⟨_, rfl⟩
    · exact ⟨_, rfl⟩

theorem State.eaSeg_of_some (s : State) (sr d : SegReg) : State.eaSeg { s with ovr := some sr } d = s.readSeg sr :=
  State.readSeg_congr rfl rfl rfl rfl sr

theorem State.eaSeg_of_none (s : State) (d : SegReg) : State.eaSeg { s with ovr := none } d = s.readSeg d :=
  State.readSeg_congr rfl rfl rfl rfl d

/-- Settles O18: a memory operand is read through its segment, which the override decides; nothing else of an operand depends on it. -/
theorem segmentOverrideReplacesDefault : Obligations.SegmentOverrideReplacesDefault := fun s sr d off ea _ =>
  ⟨congrArg (s.segRead8 · off) (s.eaSeg_of_some sr d), congrArg (s.segRead16 · off) (s.eaSeg_of_some sr d),
    congrArg (s.segRead8 · off) (s.eaSeg_of_none d), congrArg (s.segRead16 · off) (s.eaSeg_of_none d), rfl, rfl,
    decodeEA_replace ea s s.flags (some sr)⟩

/-! ## The encodings of an operand (R101, R102) -/

theorem decodeEA_sumD8_zero (r : RegSum) (s : State) : decodeEA (.sumD8 r 0) s = decodeEA (.sum r) s := by
  simp [decodeEA]

theorem decodeEA_sumD16_zero (r : RegSum) (s : State) : decodeEA (.sumD16 r 0) s = decodeEA (.sum r) s := by
  simp [decodeEA]

/-- Settles O19: the word is the byte sign-extended, and a displacement of zero adds nothing. -/
theorem severalEncodingsOneOperand : Obligations.SeveralEncodingsOneOperand := fun r _ s =>
  ⟨rfl, decodeEA_sumD8_zero r s, decodeEA_sumD16_zero r s, decodeEA_sumD8_zero .bp s, rfl⟩

/-- A constant that a displacement byte can hold is the byte sign-extended (R45). -/
theorem signExtend_ofInt_byte {k : Int} (hlo : -128 ≤ k) (hhi : k ≤ 127) :
    (BitVec.ofInt 8 k).signExtend 16 = BitVec.ofInt 16 k := by
  rw [BitVec.signExtend, BitVec.toInt_ofInt_eq_self (by decide) hlo (Int.lt_add_one_of_le hhi)]

/-- The three choices of R101 for a register sum. -/
theorem assembleEa_cases (r : RegSum) (k : Int) :
    (k = 0 ∧ r ≠ .bp ∧ assembleEa (some r) k = .sum r) ∨
    ((k = 0 → r = .bp) ∧ (-128 ≤ k ∧ k ≤ 127) ∧ assembleEa (some r) k = .sumD8 r (BitVec.ofInt 8 k)) ∨
    (¬(-128 ≤ k ∧ k ≤ 127) ∧ assembleEa (some r) k = .sumD16 r (BitVec.ofInt 16 k)) := by
  by_cases h0 : k = 0 ∧ r ≠ .bp
  · obtain ⟨hz, hr⟩ := h0
    exact .inl ⟨hz, hr, if_pos ⟨hz, hr⟩⟩
  · by_cases hk : -128 ≤ k ∧ k ≤ 127
    · have hbp (hz : k = 0) : r = .bp := Decidable.of_not_not fun hr => h0 ⟨hz, hr⟩
      exact .inr (.inl ⟨hbp, hk, (if_neg h0).trans (if_pos hk)⟩)
    · exact .inr (.inr ⟨hk, (if_neg h0).trans (if_neg hk)⟩)

/-- Settles O9: of the three choices the shortest has the constant zero, and the byte is the constant. -/
theorem assemblerFormNamesTheOperand : Obligations.AssemblerFormNamesTheOperand := by
  intro regs k s
  cases regs with
  | none => exact ⟨rfl, nofun, fun _ => rfl, nofun, nofun⟩
  | some r =>
    simp only [Option.some.injEq, forall_eq', reduceCtorEq, false_implies, true_and]
    obtain ⟨rfl, hr, he⟩ | ⟨hz, ⟨hlo, hhi⟩, he⟩ | ⟨hk, he⟩ := assembleEa_cases r k <;> rw [he]
    · exact ⟨by simpa [Ea.wf] using hr, by simp [decodeEA], fun _ => (if_neg hr).symm, fun h => absurd rfl h⟩
    · exact ⟨rfl, by rw [decodeEA, signExtend_ofInt_byte hlo hhi], fun h => (if_pos (hz h)).symm, fun _ _ _ => rfl⟩
    · exact ⟨rfl, rfl, fun h => by omega, fun _ hlo hhi => absurd ⟨hlo, hhi⟩ hk⟩

end Sys2Proof.Machine
end

section
/-! What the instructions do (41_instructions.md R103 to R110, R117): one write, FLAGS havocked or left, and the end of the instruction.
How an instruction finishes after its write is said once for FLAGS free and once for FLAGS kept, what each of the four writes leaves
once for both; an instruction's theorem is the equation of its row, the rule of its write and how it finishes. -/

namespace Sys2Proof.Machine

/-! ## After the write -/

/-- From its write in `u` an instruction begun in `s` finishes in `t`: nothing more is written but FLAGS, and its length is added to
`ip`. -/
structure State.Finishes (s u t : State) (flags : State → Prop) (n : Nat) : Prop where
  regs : u.RegsKept t
  mem : u.MemKept t
  flags : flags t
  ends : s.Ends t n

/-- `havoc(FLAGS)` (R15), and the end. -/
theorem Wrote.finishes_flagsFree {s u : State} (h : Wrote s u) (x : Word) (n : Nat) :
    s.Finishes u ((u.setFlags x).retire n) s.FlagsFree n := by
  obtain ⟨-, -, -, -, -, -, -, -, -, -, -, -, hfree, -⟩ := h.frame
  exact ⟨fun _ => rfl, fun _ => rfl, ⟨congrArg Config.freeFlags hfree, congrArg (· + 1) hfree⟩, h.ends (.inr ⟨x, rfl⟩) n⟩

/-- The end, with FLAGS as it was. -/
theorem Wrote.finishes_flagsKept {s u : State} (h : Wrote s u) (n : Nat) : s.Finishes u (u.retire n) s.FlagsKept n :=
  ⟨fun _ => rfl, fun _ => rfl, h.flagsKept n, h.ends (.inl rfl) n⟩

/-! ## The writes -/

theorem wrote_writeRw (s : State) (r : Reg16) (v : Word) : Wrote s (s.writeRw r v) := .inl ⟨r, v, rfl⟩

@[simp] theorem State.readByte_writeRw (s : State) (r : Reg16) (v : Word) (a : Loc) : (s.writeRw r v).readByte a = s.readByte a := by
  simp [State.readByte]

@[simp] theorem State.readByte_writeRb (s : State) (r : Reg8) (v : Byte) (a : Loc) : (s.writeRb r v).readByte a = s.readByte a := by
  simp [State.readByte]

theorem wrote_segWrite8 {s : State} {off : Word} {d : SegReg} (h : s.Storable 1 (.mem off d)) (v : Byte) :
    Wrote s (s.segWrite8 (s.eaSeg d) off v) := wrote_of_writeEA8 (State.writeEA8_mem h v)

theorem wrote_segWrite16 {s : State} {off : Word} {d : SegReg} (h : s.Storable 2 (.mem off d)) (v : Word) :
    Wrote s (s.segWrite16 (s.eaSeg d) off v) := wrote_of_writeEA16 (State.writeEA16_mem h v)

section Effect

variable {s t : State} {flags : State → Prop} {n : Nat}

/-- What an instruction that writes a 16-bit register leaves (R7). -/
theorem State.Finishes.writeRw {r : Reg16} {v : Word} (h : s.Finishes (s.writeRw r v) t flags n) :
    t.readRw r = v ∧ s.RegsKeptBut t r ∧ s.MemKept t ∧ flags t ∧ s.Ends t n := by
  obtain ⟨hregs, hmem, hflags, hends⟩ := h
  refine ⟨by simp [hregs r], fun q hq => ?_, fun a => ?_, hflags, hends⟩
  · rw [hregs, s.readRw_writeRw_other v hq]
  · rw [hmem, s.readByte_writeRw]

/-- What an instruction that writes an 8-bit register leaves (R9). -/
theorem State.Finishes.writeRb {r : Reg8} {v : Byte} (h : s.Finishes (s.writeRb r v) t flags n) :
    t.readRb r = v ∧ (∀ q, q ≠ r → t.readRb q = s.readRb q) ∧ s.RegsKeptBut t (regWhole r) ∧ s.MemKept t ∧ flags t ∧
      s.Ends t n := by
  obtain ⟨hregs, hmem, hflags, hends⟩ := h
  have hhalf (q : Reg8) : t.readRb q = (s.writeRb r v).readRb q := by simp only [State.readRb, hregs (regWhole q)]
  refine ⟨by simp [hhalf r], fun q hq => ?_, fun q hq => ?_, fun a => ?_, hflags, hends⟩
  · rw [hhalf, s.readRb_writeRb_other v hq]
  · rw [hregs, s.regsKeptBut_writeRb r v q hq]
  · rw [hmem, s.readByte_writeRb]

/-- What an instruction that writes a byte of memory leaves (R27). -/
theorem State.Finishes.segWrite8 {seg off : Word} {v : Byte} (h : s.Finishes (s.segWrite8 seg off v) t flags n)
    (hm : s.mem.wf = true) : t.segRead8 seg off = v ∧ s.MemKeptBut8 t seg off ∧ s.RegsKept t ∧ flags t ∧ s.Ends t n := by
  obtain ⟨hregs, hmem, hflags, hends⟩ := h
  refine ⟨?_, fun a ha => ?_, fun q => by simp [hregs q], hflags, hends⟩
  · exact (hmem _).trans (State.segRead8_segWrite8_same hm seg off v)
  · rw [hmem, s.readByte_segWrite8_other v ha]

/-- What an instruction that writes a word of memory leaves (R28). -/
theorem State.Finishes.segWrite16 {seg off v : Word} (h : s.Finishes (s.segWrite16 seg off v) t flags n)
    (hm : s.mem.wf = true) : t.segRead16 seg off = v ∧ s.MemKeptBut16 t seg off ∧ s.RegsKept t ∧ flags t ∧ s.Ends t n := by
  obtain ⟨hregs, hmem, hflags, hends⟩ := h
  have hword : t.segRead16 seg off = (s.segWrite16 seg off v).segRead16 seg off := by
    simp only [State.segRead16, State.segRead8, hmem (phys _ _)]
  refine ⟨?_, fun a h0 h1 => ?_, fun q => by simp [hregs q], hflags, hends⟩
  · rw [hword, State.segRead16_segWrite16_same hm]
  · rw [hmem, s.readByte_segWrite16_other v h0 h1]

end Effect

/-! ## Arithmetic on a register (R86 to R93, R103, R104, R109, R110) -/

/-- Settles O27: the row is the write of the difference, FLAGS and the end. -/
theorem subRegisterForm : Obligations.SubRegisterForm := fun _ _ s =>
  ⟨_, rfl, ((wrote_writeRb s _ _).finishes_flagsFree _ _).writeRb⟩

/-- Settles O29: the row is the write of the sum, both its terms read before it, FLAGS and the end. -/
theorem addRegisterForm : Obligations.AddRegisterForm := fun _ _ s =>
  ⟨_, rfl, ((wrote_writeRw s _ _).finishes_flagsFree _ _).writeRw⟩

/-- Settles O35: each row is the write of the register plus one, FLAGS and the end. -/
theorem incRegisterForm : Obligations.IncRegisterForm := fun _ s =>
  ⟨⟨_, rfl, ((wrote_writeRb s _ _).finishes_flagsFree _ _).writeRb⟩,
    ⟨_, rfl, ((wrote_writeRw s _ _).finishes_flagsFree _ _).writeRw⟩⟩

/-! ## Arithmetic on memory (R99, R103, R104, R109, R110) -/

section MemoryOperand

variable {s : State} {ea : Ea} {off : Word} {d : SegReg}

/-- A byte is stored to an operand off the program, and the row goes on. -/
theorem andThen_writeEA8_mem (hea : decodeEA ea s = .mem off d) (hs : s.Storable 1 (.mem off d)) (v : Byte) (k : State → Res) :
    andThen (s.writeEA8 (decodeEA ea s) v) k = k (s.segWrite8 (s.eaSeg d) off v) := by
  rw [hea, State.writeEA8_mem hs, andThen_next]

/-- A word is stored to an operand off the program, and the row goes on. -/
theorem andThen_writeEA16_mem (hea : decodeEA ea s = .mem off d) (hs : s.Storable 2 (.mem off d)) (v : Word) (k : State → Res) :
    andThen (s.writeEA16 (decodeEA ea s) v) k = k (s.segWrite16 (s.eaSeg d) off v) := by
  rw [hea, State.writeEA16_mem hs, andThen_next]

theorem readEA8_decodeEA_mem (hea : decodeEA ea s = .mem off d) : s.readEA8 (decodeEA ea s) = s.segRead8 (s.eaSeg d) off := by
  rw [hea, State.readEA8]

theorem readEA16_decodeEA_mem (hea : decodeEA ea s = .mem off d) : s.readEA16 (decodeEA ea s) = s.segRead16 (s.eaSeg d) off := by
  rw [hea, State.readEA16]

end MemoryOperand

/-- Settles O28: the store is carried out, of the difference from the byte that stood there. -/
theorem subMemoryForm : Obligations.SubMemoryForm := by
  intro ea ib s off d hm hea hs
  have hlen : 3 + ea.dispLen = 2 + ea.dispLen + 1 := by omega
  rw [← readEA8_decodeEA_mem hea, hlen]
  exact ⟨_, andThen_writeEA8_mem hea hs _ _, ((wrote_segWrite8 hs _).finishes_flagsFree _ _).segWrite8 hm⟩

/-- Settles O30: the store is carried out, of the sum of the word that stood there and the register. -/
theorem addMemoryForm : Obligations.AddMemoryForm := by
  intro ea r s off d hm hea hs
  rw [← readEA16_decodeEA_mem hea]
  exact ⟨_, andThen_writeEA16_mem hea hs _ _, ((wrote_segWrite16 hs _).finishes_flagsFree _ _).segWrite16 hm⟩

/-- Settles O36: the store is carried out, of one more than the byte or the word that stood there. -/
theorem incMemoryForm : Obligations.IncMemoryForm := by
  intro ea s off d hm hea
  rw [← readEA8_decodeEA_mem hea, ← readEA16_decodeEA_mem hea]
  refine ⟨fun hs => ?_, fun hs => ?_⟩
  · exact ⟨_, andThen_writeEA8_mem hea hs _ _, ((wrote_segWrite8 hs _).finishes_flagsFree _ _).segWrite8 hm⟩
  · exact ⟨_, andThen_writeEA16_mem hea hs _ _, ((wrote_segWrite16 hs _).finishes_flagsFree _ _).segWrite16 hm⟩

/-! ## Moves (R97 to R99, R105 to R108) -/

/-- Settles O31: the register takes what the operand held before the write. -/
theorem movLoadsWordRegister : Obligations.MovLoadsWordRegister := by
  intro r ea s
  obtain ⟨hval, hframe⟩ :=
    ((wrote_writeRw s r (s.readEA16 (decodeEA ea s))).finishes_flagsKept (2 + ea.dispLen)).writeRw
  refine ⟨_, rfl, ?_, fun off d hea => ?_, hframe⟩
  · rintro i rfl
    exact hval
  · rw [← readEA16_decodeEA_mem hea]
    exact hval

/-- Settles O32: the 8-bit register takes what the operand held before the write. -/
theorem movLoadsByteRegister : Obligations.MovLoadsByteRegister := by
  intro r ea s
  obtain ⟨hval, hframe⟩ :=
    ((wrote_writeRb s r (s.readEA8 (decodeEA ea s))).finishes_flagsKept (2 + ea.dispLen)).writeRb
  refine ⟨_, rfl, ?_, fun off d hea => ?_, hframe⟩
  · rintro i rfl
    exact hval
  · rw [← readEA8_decodeEA_mem hea]
    exact hval

/-- Settles O33: each row is the write of the value and the end. -/
theorem movToRegisterOperand : Obligations.MovToRegisterOperand := fun _ _ _ s =>
  ⟨⟨_, rfl, ((wrote_writeRw s _ _).finishes_flagsKept _).writeRw⟩,
    ⟨_, rfl, ((wrote_writeRw s _ _).finishes_flagsKept _).writeRw⟩⟩

/-- A word moved to memory: its low byte is the one at the operand's offset (R26). -/
theorem segWrite16_of_move {s : State} {off v : Word} {d : SegReg} (hm : s.mem.wf = true) (hs : s.Storable 2 (.mem off d)) {n m : Nat}
    (hn : n = m) : ∃ t, (.next ((s.segWrite16 (s.eaSeg d) off v).retire n) : Res) = .next t ∧ t.segRead16 (s.eaSeg d) off = v ∧
      t.segRead8 (s.eaSeg d) off = loByte v ∧ s.MemKeptBut16 t (s.eaSeg d) off ∧ s.RegsKept t ∧ s.FlagsKept t ∧ s.Ends t m := by
  subst hn
  obtain ⟨hword, hframe⟩ := ((wrote_segWrite16 hs v).finishes_flagsKept n).segWrite16 hm
  exact ⟨_, rfl, hword, by rw [← State.loByte_segRead16, hword], hframe⟩

/-- Settles O34: the store is carried out, of the register's value or of the immediate. -/
theorem movStoresWord : Obligations.MovStoresWord := by
  intro ea r iw s off d hm hea hs
  refine ⟨?_, ?_⟩
  · rw [exec, execMovEwRw, andThen_writeEA16_mem hea hs]
    exact segWrite16_of_move hm hs rfl
  · rw [exec, execMovEwIw, andThen_writeEA16_mem hea hs]
    exact segWrite16_of_move hm hs (by omega)

end Sys2Proof.Machine
end

section
/-! The end of a run (41_instructions.md R118, 70_reset_and_hazards.md R138): what is left of it is less after every step, so it is
spent after as many steps. -/

namespace Sys2Proof.Machine

theorem State.prefixLen_of_some {s : State} {sr : SegReg} (h : s.ovr = some sr) : s.prefixLen = 1 := by simp [State.prefixLen, h]

/-- One step's worth nearer to the end of the run, at an opcode position. -/
def State.Nearer (s t : State) : Prop := t.expects = .opcodeByte ∧ t.work < s.work

/-- An override byte takes the one the measure holds for it. -/
theorem State.nearer_override {s : State} (he : s.expects = .opcodeByte) (ho : s.ovr = none) (sr : SegReg) :
    s.Nearer { s with ovr := some sr, prefixAlone := false } := by
  refine ⟨he, ?_⟩
  simp only [State.work, State.prefixLen_of_none ho, State.prefixLen_of_some (s := { s with ovr := some sr, prefixAlone := false }) rfl]
  omega

/-- An instruction within the program takes two for each of its bytes, and gives back the one for the next override byte. -/
theorem State.Ends.nearer {s t : State} {n : Nat} (h : s.Ends t n) (he : s.expects = .opcodeByte) (hn : 1 ≤ n)
    (hfit : s.prefixLen + n ≤ s.progLeft) : s.Nearer t := by
  refine ⟨h.expects.trans he, ?_⟩
  simp only [State.work, h.progLeft, State.prefixLen_of_none h.ovr]
  omega

/-- A fetched row that answers a next state, at an opcode position: an override byte or an instruction. -/
theorem exec_nearer {i : Instr} {s t : State} (he : s.expects = .opcodeByte) (hf : s.fetch = .ok i) (h : exec i s = .next t) :
    s.Nearer t := by
  obtain ⟨hpos, -⟩ := fetch_bytes hf
  obtain ⟨op, hp, -⟩ | ⟨sr, -, ho, rfl⟩ | ⟨u, u', hp, hl, hw, hu, rfl⟩ := exec_next h
  · simp [hp, he] at hpos
  · exact State.nearer_override he ho sr
  · exact (hw.ends hu _).nearer he (Nat.le_of_succ_le hl) (fetch_fits hf)

/-- Settles O53: a step runs a fetched row, or an override byte and the row fetched after it, and each brings the end nearer. -/
theorem everyStepUsesUpWork : Obligations.EveryStepUsesUpWork := by
  intro s t he hstep
  obtain ⟨-, i, hf, ⟨-, hx⟩ | ⟨sr, j, -, -, ho, -, hj, hx⟩⟩ := step_next hstep
  · exact exec_nearer he hf hx
  · obtain ⟨hexp, hpre⟩ := State.nearer_override he ho sr
    obtain ⟨hexp', hrow⟩ := exec_nearer hexp hj hx
    exact ⟨hexp', Nat.lt_trans hrow hpre⟩

/-- A run of one step and more that answers a next state answered one at the first step. -/
theorem run_succ_eq_next {s t : State} {n : Nat} (h : Host.Core.run Sys2Proof.core (n + 1) s = Host.Outcome.next t) :
    ∃ u, step s = .next u ∧ Host.Core.run Sys2Proof.core n u = Host.Outcome.next t := by
  cases hs : step s with
  | next u => exact ⟨u, rfl, run_succ_next hs n ▸ h⟩
  | refused r => cases (run_succ_refused hs n).symm.trans h
  | fault f =>
    have hs' : Sys2Proof.core.step s = .fault f := hs
    simp only [Host.Core.run, hs'] at h
    cases h

/-- As many steps as were run are gone from the work left. -/
theorem run_uses_up_work {n : Nat} {s t : State} (he : s.expects = .opcodeByte)
    (h : Host.Core.run Sys2Proof.core n s = Host.Outcome.next t) : n + t.work ≤ s.work := by
  induction n generalizing s with
  | zero =>
    cases h
    omega
  | succ n ih =>
    obtain ⟨u, hu, hrun⟩ := run_succ_eq_next h
    obtain ⟨hexp, hlt⟩ := everyStepUsesUpWork s u he hu
    have hrest := ih hexp hrun
    omega

/-- Settles O54: no run that answers a next state is longer than the work it began with. -/
theorem everyRunEnds : Obligations.EveryRunEnds := by
  intro s he t h
  have hwork := run_uses_up_work he h
  omega

end Sys2Proof.Machine
end

section
/-! The program's window (70_reset_and_hazards.md R138): which locations it has (20_memory.md R25, R37), what is in them once a program
is loaded (R28), a row that the bytes at hand end inside, and the end of a run. -/

namespace Sys2Proof.Machine

/-- Settles O3: an encoding cut short is `truncated`. -/
theorem truncatedEncodingIsTruncated : Obligations.TruncatedEncodingIsTruncated := fun _ _ hw hn => decode_take_encode hw hn

/-! ## The program's locations -/

/-- A location in the window of a segment is the location of its own offset there (R23, R25). -/
theorem phys_of_window {seg : Word} {a : Loc} (h : (a - phys seg 0).toNat < 65536) :
    phys seg (BitVec.ofNat 16 (a - phys seg 0).toNat) = a := by
  apply BitVec.eq_of_toNat_eq
  have ha := a.isLt
  have hz : (0 : Word).toNat = 0 := rfl
  simp only [BitVec.toNat_sub, phys_toNat, hz, BitVec.toNat_ofNat] at h ⊢
  omega

/-- Settles O39: a location that passes the test is the program's byte at the distance of its offset from `ip0`; the converse is the
law of the program's bytes. -/
theorem programLocations : Obligations.ProgramLocations := by
  refine fun s a => ⟨fun h => ?_, fun ⟨k, hk, ha⟩ => ha ▸ State.inProgram_programByte hk⟩
  simp only [State.inProgram, Bool.and_eq_true, decide_eq_true_eq] at h
  obtain ⟨hwin, hlen⟩ := h
  refine ⟨_, hlen, ?_⟩
  rw [BitVec.ofNat_toNat, BitVec.setWidth_eq, BitVec.add_comm, BitVec.sub_add_cancel, phys_of_window hwin]

/-! ## Loading a program -/

/-- Placing bytes changes memory alone. -/
theorem State.placeBytes_frame (s : State) (off : Word) (bs : List Byte) :
    s.placeBytes off bs = { s with mem := (s.placeBytes off bs).mem } := by
  induction bs generalizing s off with
  | nil => rfl
  | cons b bs ih => exact ih (s.segWrite8 s.cs off b) (off + 1)

theorem State.segRead8_segWrite8_other (s : State) {seg off o : Word} (v : Byte) (h : o ≠ off) :
    (s.segWrite8 seg off v).segRead8 seg o = s.segRead8 seg o :=
  s.readByte_segWrite8_other v (mt phys_inj h)

/-- The `k`-th offset after the next one (R24: modulo 2^16). -/
theorem add_ofNat_succ (off : Word) (k : Nat) : off + BitVec.ofNat 16 (k + 1) = off + 1 + BitVec.ofNat 16 k := by
  rw [Nat.add_comm, BitVec.ofNat_add, BitVec.add_assoc]
  rfl

/-- An offset where no byte is placed reads as before. -/
theorem State.segRead8_placeBytes_other {s : State} {off o : Word} {bs : List Byte}
    (h : ∀ k, k < bs.length → o ≠ off + BitVec.ofNat 16 k) : (s.placeBytes off bs).segRead8 s.cs o = s.segRead8 s.cs o := by
  induction bs generalizing s off with
  | nil => rfl
  | cons b bs ih =>
    have hfirst : o ≠ off := by simpa using h 0 (by simp)
    have hrest : ∀ k, k < bs.length → o ≠ off + 1 + BitVec.ofNat 16 k := fun k hk =>
      add_ofNat_succ off k ▸ h (k + 1) (Nat.succ_lt_succ hk)
    exact (ih (s := s.segWrite8 s.cs off b) hrest).trans (s.segRead8_segWrite8_other b hfirst)

/-- No more bytes than the segment has offsets: each is read back where it was placed, the wrap at offset 0xFFFF included (R28). -/
theorem State.segRead8_placeBytes {s : State} (hm : s.mem.wf = true) {off : Word} {bs : List Byte} (hl : bs.length ≤ 65536) {k : Nat}
    {b : Byte} (hb : bs[k]? = some b) : (s.placeBytes off bs).segRead8 s.cs (off + BitVec.ofNat 16 k) = b := by
  induction bs generalizing s off k with
  | nil => cases hb
  | cons c bs ih =>
    rw [List.length_cons] at hl
    cases k with
    | zero =>
      cases hb
      have hapart : ∀ k, k < bs.length → off ≠ off + 1 + BitVec.ofNat 16 k := fun k hk => by bv_omega
      rw [BitVec.add_zero]
      exact (State.segRead8_placeBytes_other (s := s.segWrite8 s.cs off b) hapart).trans (State.segRead8_segWrite8_same hm _ _ _)
    | succ k =>
      rw [add_ofNat_succ]
      exact ih (s := s.segWrite8 s.cs off c) (State.wf_segWrite8 hm _ _ _) (by omega) hb

/-- Loading changes memory and the program window alone. -/
theorem State.loadProgram_frame (s : State) (bs : List Byte) :
    s.loadProgram bs = { s with mem := (s.placeBytes s.ip bs).mem, progDone := 0, progLeft := bs.length } := by
  rw [State.loadProgram, State.placeBytes_frame]

theorem State.progBase_loadProgram (s : State) (bs : List Byte) : (s.loadProgram bs).progBase = s.ip := by
  rw [State.loadProgram_frame]
  exact BitVec.sub_zero s.ip

theorem State.programByte_loadProgram (s : State) (bs : List Byte) (k : Nat) :
    (s.loadProgram bs).programByte k = (s.placeBytes s.ip bs).segRead8 s.cs (s.ip + BitVec.ofNat 16 k) := by
  rw [State.programByte, State.progBase_loadProgram, State.loadProgram_frame]
  rfl

/-- Settles O55: the frame of the load, the canonical form kept, and each byte read back where it was placed. -/
theorem loadedProgramStandsAtIp : Obligations.LoadedProgramStandsAtIp := by
  intro s bs hm hl
  have hframe := s.loadProgram_frame bs
  have hip : (s.loadProgram bs).ip = s.ip := by rw [hframe]
  have hlen : (s.loadProgram bs).progLen = bs.length := by simp [hframe, State.progLen]
  have hregs : s.RegsKept (s.loadProgram bs) := fun q => by rw [hframe]; cases q <;> rfl
  have hflags : (s.loadProgram bs).flags = s.flags := by rw [hframe]
  exact ⟨s.progBase_loadProgram bs, hlen, hip, State.wf_placeBytes hm _ _, hregs, hflags,
    fun k b hb => (s.programByte_loadProgram bs k).trans (State.segRead8_placeBytes hm hl hb)⟩

/-! ## The end of a run -/

/-- An outcome that is not the machine stopping by itself (60_exceptions.md R120). -/
def NoFault (r : Res) : Prop := ∀ f, r ≠ .fault f

theorem noFault_next (s : State) : NoFault (.next s) := nofun

theorem noFault_refused (r : Refusal) : NoFault (.refused r) := nofun

theorem NoFault.andThen {r : Res} {k : State → Res} (hr : NoFault r) (hk : ∀ s, NoFault (k s)) : NoFault (andThen r k) := by
  cases r with
  | next s => exact hk s
  | refused e => exact noFault_refused e
  | fault f => exact absurd rfl (hr f)

theorem State.noFault_override (s : State) (sr : SegReg) : NoFault (s.override sr) := by
  unfold State.override
  split
  · exact noFault_next _
  · exact noFault_refused _

theorem NextOrSelfModifying.noFault {r : Res} (h : NextOrSelfModifying r) : NoFault r := by
  obtain rfl | ⟨t, rfl⟩ := h
  · exact noFault_refused _
  · exact noFault_next t

/-- No row that has bytes stops the machine. -/
theorem exec_noFault {i : Instr} (hw : i.wf = true) (s : State) : NoFault (exec i s) := by
  cases hp : i.position with
  | eaByte =>
    obtain ⟨c, ea, hf⟩ := position_eq_eaByte_iff.1 hp
    obtain ⟨hea, rfl, -⟩ := eaForm?_eq_some hf
    exact exec_ofEa c hea s ▸ noFault_next _
  | opcodeByte => cases hi : i.isOverride with
    | true =>
      obtain ⟨sr, rfl⟩ := isOverride_iff.1 hi
      exact exec_prefixInstr sr s ▸ s.noFault_override sr
    | false => exact (exec_outcome ⟨hw, hp, hi⟩ s).noFault

theorem fetch_wf {s : State} {i : Instr} (h : s.fetch = .ok i) : i.wf = true := by
  obtain ⟨rest, hd⟩ := fetch_ok h
  obtain ⟨hw, -, -⟩ := decode_ok hd
  exact hw

theorem runRow_noFault (s : State) : NoFault (runRow s) := by
  unfold runRow
  split
  · exact noFault_refused _
  · exact exec_noFault (fetch_wf ‹_›) s

theorem runInstr_noFault (s : State) : NoFault (runInstr s) := by
  unfold runInstr
  split
  · exact noFault_refused _
  · rename_i i hf
    have hx := exec_noFault (fetch_wf hf) s
    split
    · exact hx.andThen runRow_noFault
    · exact hx

theorem step_eq_fault_iff (s : State) : step s = .fault .runEnded ↔ s.runEnded = true := by
  cases h : s.runEnded with
  | true => simp [step, h]
  | false => simpa [step, h] using runInstr_noFault s .runEnded

/-- Settles O44: nothing a step runs is a fault, so the fault is the test for the end of the run. -/
theorem runEndsAtProgramEnd : Obligations.RunEndsAtProgramEnd := fun s => by
  rw [step_eq_fault_iff]
  simp [State.runEnded, and_assoc]

end Sys2Proof.Machine
end
